-- ==== Sys2Proof/Word.lean ====
section
/-! DEFINITION. The word types and the plain data kinds of the command interface: bytes, command words,
plaintext and encoded byte sequences, typed messages, frames and error codes. -/

namespace Sys2Proof

/-- A byte, 0..255 (00_scope.md section 6). -/
abbrev Byte := BitVec 8

/-- A command word (R90, R94). -/
abbrev Word := BitVec 16

/-- A 16-bit value: a message id or a CRC (R9). -/
abbrev U16 := BitVec 16

/-- A 32-bit value (00_scope.md section 6). -/
abbrev U32 := BitVec 32

/-- A plaintext byte sequence. Plain and Encoded are distinct kinds, told apart by type (R13). -/
structure Plain where
  bytes : List Byte
  deriving DecidableEq, Repr

/-- An encoded (byte-stuffed) byte sequence (R13). -/
structure Encoded where
  bytes : List Byte
  deriving DecidableEq, Repr

/-- A byte-sequence operand of either kind; CRC16 takes both (R95). -/
inductive ByteSeq where
  | plain (p : Plain)
  | encoded (e : Encoded)
  deriving DecidableEq, Repr

/-- A typed message (R114). `error` is a raw byte (R234); `stepFreq` is the 32-bit pattern of an f32 (R235). -/
inductive Msg where
  | heartbeat (seq : Byte)
  | ack (msgId : U16) (error : Byte)
  | setFrequency (minFreq : U32) (stepFreq : U32)
  | startStreaming (count : U32)
  | spectrumData (amplitudes : List Byte)
  deriving DecidableEq, Repr

/-- The result of FRM_DESERIALIZE (R96, R200). -/
structure Frame where
  msgId : U16
  payload : Plain
  crc : U16
  deriving DecidableEq, Repr

/-- The nine error codes, by name (R110); each one's byte is `ErrCode.code` in Machine/Ops.lean. Values 9 to 255 are
reserved and no response carries them (R111), so they have no constructor. -/
inductive ErrCode where
  | noError
  | invalidMagic
  | incorrectAlignment
  | notEnoughData
  | invalidCrc
  | incomplete
  | unknownMsgId
  | outOfMemory
  | messageNotReady
  deriving DecidableEq, Repr

end Sys2Proof
end

