-- ==== Sys2Proof/Config.lean ====
section
/-! DEFINITION. The parameters the spec leaves OPEN per instance (R7, R8). They are fixed for an instance, so
State carries one Config that no command and no reset changes, and every statement holds for every Config. The
model needs no free value: what the spec leaves unspecified is buffer bytes, which stay unwritten (log 2). -/

namespace Sys2Proof

/-- A subset of the message ids {0, 1, 2, 3, 4} (R8): one membership bit per id. -/
structure RegSet where
  heartbeat : Bool
  ack : Bool
  setFrequency : Bool
  startStreaming : Bool
  spectrumData : Bool
  deriving DecidableEq, Repr

/-- The capacity and registry parameters of one instance (R7, R8). `opndMax = none` is "unbounded". -/
structure Config where
  rxCap : Nat
  txCap : Nat
  txEncCap : Nat
  opndMax : Option Nat
  regRx : RegSet
  regTx : RegSet
  deriving DecidableEq, Repr

/-- RX_CAP is an integer of at least 1; the other parameters have no illegal value (R7). -/
def Config.wf (c : Config) : Bool := decide (1 ≤ c.rxCap)

/-- All five ids registered. -/
def RegSet.all : RegSet := ⟨true, true, true, true, true⟩

/-- The configuration State.reset is given. DESIGN CHOICE (log 1): the spec leaves every value OPEN; these are the
ones its test vectors use ("Configuration unless stated", 95_test_vectors.md). Unsafe for a statement that rests on
a value; no obligation does. -/
def Config.standard : Config :=
  { rxCap := 64, txCap := 64, txEncCap := 128, opndMax := none, regRx := RegSet.all, regTx := RegSet.all }

end Sys2Proof
end

