-- ==== Sys2Proof/Syntax.lean ====
section
/-! DEFINITION. The commands of the block, one constructor per row of the opcode table (R91), with the operands of
R95. -/

namespace Sys2Proof

/-- A command with its operands. Byte-sequence operands have the kind R95 fixes; `cap` is a destination capacity in
bytes. -/
inductive Instr where
  /-- CRC16 (R140). -/
  | crc16 (data : ByteSeq)
  /-- ESC_ENCODE (R160). -/
  | escEncode (plain : Plain) (cap : Nat)
  /-- ESC_DECODE (R170). -/
  | escDecode (enc : Encoded) (cap : Nat)
  /-- FRM_SERIALIZE (R190). -/
  | frmSerialize (id : U16) (payload : Plain) (cap : Nat)
  /-- FRM_DESERIALIZE (R200). -/
  | frmDeserialize (data : Plain)
  /-- FRM_EXTRACT (R210). -/
  | frmExtract (stream : Encoded)
  /-- REG_DECODE_PAYLOAD (R230). -/
  | regDecodePayload (id : U16) (bytes : Plain)
  /-- REG_ENCODE_PAYLOAD (R245). -/
  | regEncodePayload (m : Msg)
  /-- TX_SEND (R260). -/
  | txSend (m : Msg)
  /-- RX_PUT (R280): the byte is IMM8. -/
  | rxPut (b : Byte)
  /-- RX_READY (R288). -/
  | rxReady
  /-- RX_COLLECT (R290). -/
  | rxCollect
  /-- RX_RESET (R301). -/
  | rxReset
  deriving DecidableEq, Repr

end Sys2Proof
end

