-- ==== Sys2Proof/WellFormed.lean ====
section
/-! DEFINITION. Well-formed commands: every byte-sequence operand has length at most OPND_MAX (R95, R97 item 4).
Operand kinds are fixed by the types of Instr, so this length is the only check. -/

namespace Sys2Proof

/-- Length of a byte-sequence operand. -/
def ByteSeq.length : ByteSeq → Nat
  | .plain p => p.bytes.length
  | .encoded e => e.bytes.length

/-- The length of the command's byte-sequence operand, 0 where it has none. The amplitudes inside a Msg are no
byte-sequence operand (DEDUCED, log 11: R95 lists Msg as a kind of its own, and R265 gives TX_SEND no such bound). -/
def Instr.seqOperandLength : Instr → Nat
  | .crc16 data => data.length
  | .escEncode plain _ => plain.bytes.length
  | .escDecode enc _ => enc.bytes.length
  | .frmSerialize _ payload _ => payload.bytes.length
  | .frmDeserialize data => data.bytes.length
  | .frmExtract stream => stream.bytes.length
  | .regDecodePayload _ bytes => bytes.bytes.length
  | .regEncodePayload _ => 0
  | .txSend _ => 0
  | .rxPut _ => 0
  | .rxReady => 0
  | .rxCollect => 0
  | .rxReset => 0

/-- Within OPND_MAX; `none` is unbounded (R7). -/
def withinMax (opndMax : Option Nat) (n : Nat) : Bool :=
  match opndMax with
  | none => true
  | some k => decide (n ≤ k)

/-- The command's operands are within the instance's OPND_MAX (R95). -/
def Instr.wellFormed (opndMax : Option Nat) (i : Instr) : Bool :=
  withinMax opndMax i.seqOperandLength

end Sys2Proof
end

