-- ==== Sys2Proof/Decode.lean ====
section
/-! DEFINITION. The command word and operand record (R90 to R97): the table of rows, the decoder, total on every
word and record and rejecting by name, the encoder written from the same table, and the RX_PUTS pseudo-command. -/

namespace Sys2Proof

/-- The operand record presented with a command word (R95): one lane per operand kind, empty where the host gives no
operand of that kind. A lane the command does not list is not looked at (DESIGN CHOICE, log 10). -/
structure OperandRecord where
  seq : Option ByteSeq
  id : Option U16
  cap : Option Nat
  msg : Option Msg
  deriving DecidableEq, Repr

/-- One command on the port: a word and its operand record (R3, R5). -/
structure Command where
  word : Word
  opnds : OperandRecord
  deriving DecidableEq, Repr

/-- Why a command is refused, the cases of R97. The response carries no reason; the names are the model's own. -/
inductive Reject where
  /-- R97 item 1: OP is 0x0, 0xE or 0xF. -/
  | reservedOp
  /-- R97 item 2: RSV is not 0. -/
  | reservedField
  /-- R97 item 3: IMM8 is not 0 and OP is not RX_PUT's. -/
  | immediateField
  /-- R97 item 4: an operand is missing. -/
  | operandMissing
  /-- R97 item 4: Plain where Encoded is required, or the reverse. -/
  | operandKind
  /-- R97 item 4: a byte sequence longer than OPND_MAX. -/
  | operandTooLong
  deriving DecidableEq, Repr

/-- `OP = word[15:12]` (R90, R92). -/
def opField (w : Word) : BitVec 4 := w.extractLsb' 12 4

/-- `RSV = word[11:8]` (R90, R92). -/
def rsvField (w : Word) : BitVec 4 := w.extractLsb' 8 4

/-- `IMM8 = word[7:0]` (R90, R92). -/
def imm8Field (w : Word) : Byte := w.extractLsb' 0 8

/-- The lane of a byte sequence of either kind (CRC16, R140). -/
def OperandRecord.needSeq (r : OperandRecord) : Except Reject ByteSeq :=
  match r.seq with
  | none => .error .operandMissing
  | some x => .ok x

/-- A Plain sequence is required (R95, R97 item 4). -/
def OperandRecord.needPlain (r : OperandRecord) : Except Reject Plain :=
  match r.seq with
  | none => .error .operandMissing
  | some (.plain p) => .ok p
  | some (.encoded _) => .error .operandKind

/-- An Encoded sequence is required (R95, R97 item 4). -/
def OperandRecord.needEncoded (r : OperandRecord) : Except Reject Encoded :=
  match r.seq with
  | none => .error .operandMissing
  | some (.plain _) => .error .operandKind
  | some (.encoded e) => .ok e

/-- A u16 is required (R95). -/
def OperandRecord.needId (r : OperandRecord) : Except Reject U16 :=
  match r.id with
  | none => .error .operandMissing
  | some v => .ok v

/-- A Nat is required (R95). -/
def OperandRecord.needCap (r : OperandRecord) : Except Reject Nat :=
  match r.cap with
  | none => .error .operandMissing
  | some v => .ok v

/-- A Msg is required (R95). -/
def OperandRecord.needMsg (r : OperandRecord) : Except Reject Msg :=
  match r.msg with
  | none => .error .operandMissing
  | some m => .ok m

/-- The operands of each opcode (R91, R95). -/
def decodeOperands (op : Nat) (imm : Byte) (r : OperandRecord) : Except Reject Instr :=
  match op with
  | 0x1 => r.needSeq.map .crc16
  | 0x2 => r.needPlain.bind fun p => r.needCap.map fun k => .escEncode p k
  | 0x3 => r.needEncoded.bind fun e => r.needCap.map fun k => .escDecode e k
  | 0x4 => r.needId.bind fun i => r.needPlain.bind fun p => r.needCap.map fun k => .frmSerialize i p k
  | 0x5 => r.needPlain.map .frmDeserialize
  | 0x6 => r.needEncoded.map .frmExtract
  | 0x7 => r.needId.bind fun i => r.needPlain.map fun p => .regDecodePayload i p
  | 0x8 => r.needMsg.map .regEncodePayload
  | 0x9 => r.needMsg.map .txSend
  | 0xA => .ok (.rxPut imm)
  | 0xB => .ok .rxReady
  | 0xC => .ok .rxCollect
  | 0xD => .ok .rxReset
  | _ => .error .reservedOp

/-- The decoder (R92, R93, R97 items 1 to 4 but for the length, which the instance's OPND_MAX decides). -/
def decode (c : Command) : Except Reject Instr :=
  let op := (opField c.word).toNat
  if op = 0x0 ∨ op = 0xE ∨ op = 0xF then .error .reservedOp
  else if rsvField c.word ≠ 0 then .error .reservedField
  else if op ≠ 0xA ∧ imm8Field c.word ≠ 0 then .error .immediateField
  else decodeOperands op (imm8Field c.word) c.opnds

/-! The table of R92 and the encoder. -/

/-- One row of the table in R92. -/
structure Row where
  mnemonic : String
  pattern : Word
  mask : Word
  deriving DecidableEq, Repr

/-- The per-opcode word patterns of R92, in its order. -/
def commandTable : List Row :=
  [ ⟨"CRC16", 0x1000, 0xFFFF⟩
  , ⟨"ESC_ENCODE", 0x2000, 0xFFFF⟩
  , ⟨"ESC_DECODE", 0x3000, 0xFFFF⟩
  , ⟨"FRM_SERIALIZE", 0x4000, 0xFFFF⟩
  , ⟨"FRM_DESERIALIZE", 0x5000, 0xFFFF⟩
  , ⟨"FRM_EXTRACT", 0x6000, 0xFFFF⟩
  , ⟨"REG_DECODE_PAYLOAD", 0x7000, 0xFFFF⟩
  , ⟨"REG_ENCODE_PAYLOAD", 0x8000, 0xFFFF⟩
  , ⟨"TX_SEND", 0x9000, 0xFFFF⟩
  , ⟨"RX_PUT", 0xA000, 0xFF00⟩
  , ⟨"RX_READY", 0xB000, 0xFFFF⟩
  , ⟨"RX_COLLECT", 0xC000, 0xFFFF⟩
  , ⟨"RX_RESET", 0xD000, 0xFFFF⟩ ]

/-- A word matches a row when `(word & mask) == match` (R93). -/
def Row.accepts (row : Row) (w : Word) : Bool := w &&& row.mask == row.pattern

/-- The command word of an instruction (R92); RX_PUT carries its byte in IMM8 (R280). -/
def encodeWord : Instr → Word
  | .crc16 _ => 0x1000
  | .escEncode _ _ => 0x2000
  | .escDecode _ _ => 0x3000
  | .frmSerialize _ _ _ => 0x4000
  | .frmDeserialize _ => 0x5000
  | .frmExtract _ => 0x6000
  | .regDecodePayload _ _ => 0x7000
  | .regEncodePayload _ => 0x8000
  | .txSend _ => 0x9000
  | .rxPut b => 0xA000 ||| b.setWidth 16
  | .rxReady => 0xB000
  | .rxCollect => 0xC000
  | .rxReset => 0xD000

/-- The record with no operand. -/
def OperandRecord.empty : OperandRecord := { seq := none, id := none, cap := none, msg := none }

/-- The operand record of an instruction, exactly the operands R95 lists. -/
def encodeOperands : Instr → OperandRecord
  | .crc16 data => { OperandRecord.empty with seq := some data }
  | .escEncode plain cap => { OperandRecord.empty with seq := some (.plain plain), cap := some cap }
  | .escDecode enc cap => { OperandRecord.empty with seq := some (.encoded enc), cap := some cap }
  | .frmSerialize id payload cap =>
    { OperandRecord.empty with seq := some (.plain payload), id := some id, cap := some cap }
  | .frmDeserialize data => { OperandRecord.empty with seq := some (.plain data) }
  | .frmExtract stream => { OperandRecord.empty with seq := some (.encoded stream) }
  | .regDecodePayload id bytes => { OperandRecord.empty with seq := some (.plain bytes), id := some id }
  | .regEncodePayload m => { OperandRecord.empty with msg := some m }
  | .txSend m => { OperandRecord.empty with msg := some m }
  | .rxPut _ => OperandRecord.empty
  | .rxReady => OperandRecord.empty
  | .rxCollect => OperandRecord.empty
  | .rxReset => OperandRecord.empty

/-- The encoder. -/
def encode (i : Instr) : Command := { word := encodeWord i, opnds := encodeOperands i }

/-- The pseudo-command RX_PUTS: one RX_PUT word `0xA000 | b` per byte, in order (R99). -/
def rxPuts (bs : List Byte) : List Command := bs.map fun b => encode (.rxPut b)

/-! The words of the opcode table, which has no bits for operands. -/

/-- The operand record of zeros that stands for operand words the table gives no bits (log 7): empty sequence, of the
kind the opcode requires (R95), id 0, capacity 0, Heartbeat of sequence number 0. -/
def zeroRecord (w : Word) : OperandRecord :=
  let op := (opField w).toNat
  { seq := some (if op = 0x3 ∨ op = 0x6 then .encoded ⟨[]⟩ else .plain ⟨[]⟩)
    id := some 0
    cap := some 0
    msg := some (.heartbeat 0) }

/-- The command of a table word: the low `nbits` bits of `w` as the command word, operands of zeros. -/
def tableCommand (nbits w : Nat) : Command :=
  let word : Word := BitVec.ofNat 16 (w % 2 ^ nbits)
  { word := word, opnds := zeroRecord word }

/-- What the decoder reads from a word of the opcode table. A command is exactly one 16-bit word (R94). -/
def decodeTableWord (nbits w : Nat) : Option Instr :=
  if 2 ^ 16 ≤ w % 2 ^ nbits then none
  else match decode (tableCommand nbits w) with
    | .ok i => some i
    | .error _ => none

end Sys2Proof
end

