-- ==== Sys2Proof/Machine/State.lean ====
section
/-! DEFINITION. The state of one block (10_state.md) with what stands at its interfaces (R5): configuration, receiver
registers, the four buffers, the borrowed slice's validity, TX output, response and command port. Plain data. -/

namespace Sys2Proof.Machine

/-- The Receiver state rx_st (R31). Its 2-bit code is `RxState.code` in Flags.lean. -/
inductive RxState where
  | idle
  | frameOpen
  | frameReady
  | overflow
  deriving DecidableEq, Repr

/-- The four byte buffers, each its own address space (R37, R60). -/
inductive Buf where
  | acc
  | rxd
  | scr
  | encb
  deriving DecidableEq, Repr

/-- A view: buffer, offset and length (R62). -/
structure View where
  buf : Buf
  off : Nat
  len : Nat
  deriving DecidableEq, Repr

/-- The value of a response (R96). A message from RX_COLLECT that borrows its amplitudes carries the view as well as
the bytes under it at the moment of the response (R294). -/
inductive Value where
  | u16 (v : U16)
  | plain (p : Plain)
  | encoded (e : Encoded)
  | frame (f : Frame)
  | view (off len : Nat) (bytes : Encoded)
  | msg (m : Msg) (borrowed : Option View)
  | bit (b : Bool)
  deriving DecidableEq, Repr

/-- The response record {accepted, err, value} (R5, R96, R97). `err` is kept by name; its 8 bits are
`Response.errByte` in Ops.lean. -/
structure Response where
  accepted : Bool
  err : Option ErrCode
  value : Option Value
  deriving DecidableEq, Repr

/-- What the host presents to the block, in its order (R3, R5): a command, or the reset input between two commands
(log 9). -/
inductive PortInput where
  | command (c : Command)
  | reset
  deriving DecidableEq, Repr

/-- A buffer's contents: its written bytes, addresses strictly rising. An unlisted address has no value (R38, log 2),
so no listed byte can equal what an unlisted address reads as. -/
abbrev Memory := List Host.Cell

/-- One block. -/
structure State where
  /-- RX_CAP, TX_CAP, TX_ENC_CAP, OPND_MAX, REG_RX, REG_TX (R7, R8, R35). -/
  cfg : Config
  /-- rx_st (R31). -/
  rxSt : RxState
  /-- rx_wr (R32). -/
  rxWr : Nat
  /-- ACC, the RX accumulation buffer (R37). -/
  acc : Memory
  /-- RXD, the RX decode buffer (R37). -/
  rxd : Memory
  /-- SCR, the TX scratch buffer (R37). -/
  scr : Memory
  /-- ENCB, the TX encode buffer (R37). -/
  encb : Memory
  /-- The SpectrumData slice that is valid now, if any (R40, R294, R356). -/
  slice : Option View
  /-- The bytes emitted on the TX byte output since reset, in order (R5, R263, log 13). -/
  txOut : List Byte
  /-- The response to the last command (R3, R5, log 12). -/
  resp : Option Response
  /-- What the host has presented and the block has not yet taken (R3, log 7). -/
  inputs : List PortInput
  deriving DecidableEq, Repr

/-- Where the machine stops. The block itself never traps (R320): these are the accesses the spec leaves undefined
(R12, U1) or unspecified (R38, R356). All are safe: the model stops where the spec gives no value. -/
inductive Fault where
  /-- Raised by memRead, memWrite, byteAt, sliceOf and the view primitives on an access outside the buffer or view
  (R12, R63, U1). Safe. -/
  | outOfRange
  /-- Raised by memRead on a byte that nothing has written, or whose contents the spec calls unspecified (R38, U2, U5,
  U6; log 2, 3, 4). Safe. -/
  | unwrittenRead
  /-- Raised by readSlice when no borrowed slice is valid (R356, U7; log 14); no command raises it. Safe. -/
  | expiredSlice
  deriving DecidableEq, Repr

/-- Commands the block does not accept. -/
inductive Refusal where
  /-- An instruction the model gives no meaning yet; raised by exec alone. Safe. No arm of exec uses it. -/
  | notModelled (mnemonic : String)
  /-- The command is refused (R97, U13: "refuse"); raised by step. R97 says a model reads it as its refusal outcome.
  Safe. `refusedNext` in Operands.lean is the state and response the refusal leaves (log 6). -/
  | rejected (why : Reject)
  deriving DecidableEq, Repr

/-- The state after power-on of a block with configuration `c` (R350, 10_state.md section 7): IDLE, cursor 0, no
buffer byte written, nothing emitted. No response and an empty port are the model's own (log 7, log 12). -/
def State.resetWith (c : Config) : State :=
  { cfg := c
    rxSt := .idle
    rxWr := 0
    acc := []
    rxd := []
    scr := []
    encb := []
    slice := none
    txOut := []
    resp := none
    inputs := [] }

/-- The machine right after reset, with the configuration log 1 names. -/
def State.reset : State := State.resetWith Config.standard

end Sys2Proof.Machine
end

