-- ==== Sys2Proof/Machine/Ops.lean ====
section
/-! DEFINITION. The named operations: the bytes of the error codes (R110), constants (R9), byte order (R64 to R67),
results and errors (R320), buffer access (R63), view primitives (R11), state updates, the response and the reset input. The block has no exception entry and no
return from one (R324): what stands in their place is the error answer of `answer` below. -/

namespace Sys2Proof

/-! Error codes (R9, R110, R111). -/

/-- The one-byte value of an error code (R110; the code column of R321). -/
def ErrCode.code : ErrCode → Byte
  | .noError => 0
  | .invalidMagic => 1
  | .incorrectAlignment => 2
  | .notEnoughData => 3
  | .invalidCrc => 4
  | .incomplete => 5
  | .unknownMsgId => 6
  | .outOfMemory => 7
  | .messageNotReady => 8

/-- The error code a byte names; none for 9 to 255, which R111 reserves. -/
def ErrCode.ofCode (b : Byte) : Option ErrCode :=
  match b.toNat with
  | 0 => some .noError
  | 1 => some .invalidMagic
  | 2 => some .incorrectAlignment
  | 3 => some .notEnoughData
  | 4 => some .invalidCrc
  | 5 => some .incomplete
  | 6 => some .unknownMsgId
  | 7 => some .outOfMemory
  | 8 => some .messageNotReady
  | _ => none

end Sys2Proof

namespace Sys2Proof.Machine

/-! Constants fixed by the source (R9, R101). -/

/-- START. -/
def startByte : Byte := 0xFD
/-- END. -/
def endByte : Byte := 0xFE
/-- ESCAPE. -/
def escapeByte : Byte := 0xFC

/-- A marker byte (R101; 42_escape_codec.md: `reserved(b)`). -/
def isReserved (b : Byte) : Bool := b == startByte || b == endByte || b == escapeByte

/-! Byte order (R64, R65, R67): the low byte first. -/

/-- `v[7:0]`. -/
def loByte (v : U16) : Byte := v.extractLsb' 0 8

/-- `v[15:8]`. -/
def hiByte (v : U16) : Byte := v.extractLsb' 8 8

/-- `lo | (hi << 8)`. -/
def le16 (lo hi : Byte) : U16 := (lo.setWidth 16 : U16) ||| ((hi.setWidth 16 : U16) <<< 8)

/-- `b0 | b1 << 8 | b2 << 16 | b3 << 24`. -/
def le32 (b0 b1 b2 b3 : Byte) : U32 :=
  (b0.setWidth 32 : U32) ||| ((b1.setWidth 32 : U32) <<< 8) ||| ((b2.setWidth 32 : U32) <<< 16)
    ||| ((b3.setWidth 32 : U32) <<< 24)

/-- `bytesLE16(v)` (00_scope.md section 6). -/
def bytesLE16 (v : U16) : List Byte := [loByte v, hiByte v]

/-- `bytesLE32(v)` (00_scope.md section 6). -/
def bytesLE32 (v : U32) : List Byte :=
  [v.extractLsb' 0 8, v.extractLsb' 8 8, v.extractLsb' 16 8, v.extractLsb' 24 8]

/-! Results. -/

/-- How a rule's pseudocode ends early: `raise Err(CODE)` (R320), or an access the spec leaves undefined, on which a
model must fault (R12). -/
inductive Stop where
  | err (c : ErrCode)
  | fault (f : Fault)
  deriving DecidableEq, Repr

/-- The result of a rule's pseudocode. -/
abbrev Res (α : Type) := Except Stop α

/-- `raise Err(CODE)`. -/
def raise {α : Type} (c : ErrCode) : Res α := .error (.err c)

/-- The model stops (R12). -/
def faulted {α : Type} (f : Fault) : Res α := .error (.fault f)

/-- `xs[i]`, a fault out of range (R12). -/
def byteAt (xs : List Byte) (i : Nat) : Res Byte :=
  match xs[i]? with
  | some b => .ok b
  | none => faulted .outOfRange

/-- `xs[i..j)`, a fault out of range (R12). -/
def sliceOf (xs : List Byte) (i j : Nat) : Res (List Byte) :=
  if i ≤ j ∧ j ≤ xs.length then .ok ((xs.take j).drop i) else faulted .outOfRange

/-! Buffers (R37, R60, R63). -/

/-- The byte at an address, none where nothing is written. -/
def Memory.get : Memory → Nat → Option Byte
  | [], _ => none
  | (k, v) :: m, a => if k = a then some v else Memory.get m a

/-- Write one byte, keeping the addresses strictly rising. -/
def Memory.set : Memory → Nat → Byte → Memory
  | [], a, b => [(a, b)]
  | (k, v) :: m, a, b =>
    if a < k then (a, b) :: (k, v) :: m
    else if a = k then (a, b) :: m
    else (k, v) :: Memory.set m a b

/-- Write the bytes `xs` at `a`, `a+1`, .... -/
def Memory.setMany : Memory → Nat → List Byte → Memory
  | m, _, [] => m
  | m, a, b :: xs => Memory.setMany (Memory.set m a b) (a + 1) xs

/-- Read `n` bytes from `a`; a fault on an unwritten byte (R38). -/
def Memory.getMany (m : Memory) : Nat → Nat → Res (List Byte)
  | _, 0 => .ok []
  | a, n + 1 =>
    match m.get a with
    | none => faulted .unwrittenRead
    | some b => (Memory.getMany m (a + 1) n).map (b :: ·)

/-- Addresses strictly rising, all of them at least `lo` and below `size`. -/
def Memory.wfFrom (size : Nat) : Nat → Memory → Bool
  | _, [] => true
  | lo, (k, _) :: m => decide (lo ≤ k) && decide (k < size) && Memory.wfFrom size (k + 1) m

/-- The canonical form of a buffer of `size` bytes: equal contents are equal lists. -/
def Memory.wf (size : Nat) (m : Memory) : Bool := Memory.wfFrom size 0 m

/-- The buffer's contents. -/
def State.mem (s : State) : Buf → Memory
  | .acc => s.acc
  | .rxd => s.rxd
  | .scr => s.scr
  | .encb => s.encb

/-- The buffer's size in bytes (R37, R60). -/
def State.size (s : State) : Buf → Nat
  | .acc => s.cfg.rxCap
  | .rxd => s.cfg.rxCap
  | .scr => s.cfg.txCap
  | .encb => s.cfg.txEncCap

/-- Replace the buffer's contents. -/
def State.setMem (s : State) (m : Memory) : Buf → State
  | .acc => { s with acc := m }
  | .rxd => { s with rxd := m }
  | .scr => { s with scr := m }
  | .encb => { s with encb := m }

/-- MemRead(B, a, n) (R63): requires a + n ≤ size(B), and faults outside it (R12). -/
def State.memRead (s : State) (B : Buf) (a n : Nat) : Res (List Byte) :=
  if a + n ≤ s.size B then (s.mem B).getMany a n else faulted .outOfRange

/-- MemWrite(B, a, n, xs) (R63): requires a + n ≤ size(B) and len(xs) = n, and faults outside it (R12). -/
def State.memWrite (s : State) (B : Buf) (a n : Nat) (xs : List Byte) : Res State :=
  if a + n ≤ s.size B ∧ xs.length = n then .ok (s.setMem ((s.mem B).setMany a xs) B) else faulted .outOfRange

/-- The buffer's contents become unspecified: no byte of it has a value any more (U5, U6; log 3, 4). -/
def State.forget (s : State) (B : Buf) : State := s.setMem [] B

/-! The other state updates. -/

/-- `rx_st <- st; rx_wr <- wr`. -/
def State.setRx (s : State) (st : RxState) (wr : Nat) : State := { s with rxSt := st, rxWr := wr }

/-- The borrowed slice that is valid from now on (R294, R356). -/
def State.setSlice (s : State) (v : Option View) : State := { s with slice := v }

/-- `emit(b)` for each byte, in order (00_scope.md section 6, R263). -/
def State.emit (s : State) (bs : List Byte) : State := { s with txOut := s.txOut ++ bs }

/-- The response record of this command. -/
def State.respond (s : State) (r : Response) : State := { s with resp := some r }

/-- What is left on the port. -/
def State.setInputs (s : State) (l : List PortInput) : State := { s with inputs := l }

/-! Responses (R96, R97). -/

/-- `return v`: NO_ERROR and the value, if the command has one. -/
def Response.success (v : Option Value) : Response := { accepted := true, err := some .noError, value := v }

/-- `raise Err(CODE)`: the code and no value (R320, R322). -/
def Response.failure (c : ErrCode) : Response := { accepted := true, err := some c, value := none }

/-- {accepted = 0}, with no err and no value (R97). -/
def Response.refused : Response := { accepted := false, err := none, value := none }

/-- The 8-bit `err` field of the response record as the host reads it (R5, R9, R110); none with accepted = 0 (R97). -/
def Response.errByte (r : Response) : Option Byte := r.err.map ErrCode.code

/-- The records R96, R97 and R322 allow: a value only with NO_ERROR, nothing with accepted = 0. -/
def Response.wf (r : Response) : Bool :=
  match r.accepted, r.err, r.value with
  | true, some .noError, _ => true
  | true, some _, none => true
  | false, none, none => true
  | _, _, _ => false

/-- The end of a command whose errors change no state (R323): respond with the value or the code and take the next
command as usual (R320). A failing command completes; only an undefined access stops the machine. -/
def answer (s : State) (r : Res (Option Value)) : Host.Outcome State Fault Refusal :=
  match r with
  | .ok v => .next (s.respond (.success v))
  | .error (.err c) => .next (s.respond (.failure c))
  | .error (.fault f) => .fault f

/-! View primitives (R11, R62). The buffer is the byte list under the view. -/

/-- A view over the byte list `base`: offset and length (R11). -/
structure Cursor where
  base : List Byte
  off : Nat
  len : Nat
  deriving DecidableEq, Repr

/-- The view of a whole byte list. -/
def Cursor.whole (xs : List Byte) : Cursor := { base := xs, off := 0, len := xs.length }

/-- `o + l ≤ size(B)` (R62). -/
def Cursor.wf (v : Cursor) : Bool := decide (v.off + v.len ≤ v.base.length)

/-- `size` = length. -/
def Cursor.size (v : Cursor) : Nat := v.len

/-- The bytes `B[o..o+l)` (R62). -/
def Cursor.bytes (v : Cursor) : Res (List Byte) := sliceOf v.base v.off (v.off + v.len)

/-- `front` = B[offset]. An empty view has no front: a fault (U1). -/
def Cursor.front (v : Cursor) : Res Byte := if 1 ≤ v.len then byteAt v.base v.off else faulted .outOfRange

/-- `back` = B[offset+length-1]. -/
def Cursor.back (v : Cursor) : Res Byte :=
  if 1 ≤ v.len then byteAt v.base (v.off + v.len - 1) else faulted .outOfRange

/-- `remove_prefix(n)`: offset += n, length -= n; a negative length is a fault (U1). -/
def Cursor.removePrefix (v : Cursor) (n : Nat) : Res Cursor :=
  if n ≤ v.len then .ok { v with off := v.off + n, len := v.len - n } else faulted .outOfRange

/-- `remove_postfix(n)`: length -= n; a negative length is a fault (U1). -/
def Cursor.removePostfix (v : Cursor) (n : Nat) : Res Cursor :=
  if n ≤ v.len then .ok { v with len := v.len - n } else faulted .outOfRange

/-- `take_one`: read the front byte and remove_prefix(1). -/
def Cursor.takeOne (v : Cursor) : Res (Byte × Cursor) :=
  v.front.bind fun b => (v.removePrefix 1).map fun v' => (b, v')

/-- `take_two`: read LE16 at the front and remove_prefix(2). -/
def Cursor.takeTwo (v : Cursor) : Res (U16 × Cursor) :=
  if 2 ≤ v.len then
    (byteAt v.base v.off).bind fun lo => (byteAt v.base (v.off + 1)).bind fun hi =>
      (v.removePrefix 2).map fun v' => (le16 lo hi, v')
  else faulted .outOfRange

/-- `drop_one`: read the back byte and remove_postfix(1). -/
def Cursor.dropOne (v : Cursor) : Res (Byte × Cursor) :=
  v.back.bind fun b => (v.removePostfix 1).map fun v' => (b, v')

/-- `drop_two`: read `B[o+l-2] | B[o+l-1] << 8` and remove_postfix(2). -/
def Cursor.dropTwo (v : Cursor) : Res (U16 × Cursor) :=
  if 2 ≤ v.len then
    (byteAt v.base (v.off + v.len - 2)).bind fun lo => (byteAt v.base (v.off + v.len - 1)).bind fun hi =>
      (v.removePostfix 2).map fun v' => (le16 lo hi, v')
  else faulted .outOfRange

/-- `resize(n)`: length = n; a view past the end of its buffer is a fault (R62, U1). -/
def Cursor.resize (v : Cursor) (n : Nat) : Res Cursor :=
  if v.off + n ≤ v.base.length then .ok { v with len := n } else faulted .outOfRange

/-- Equality of views is element-wise (R11). -/
def Cursor.equal (v w : Cursor) : Res Bool := v.bytes.bind fun xs => w.bytes.map fun ys => decide (xs = ys)

/-! The borrowed slice and the reset input. -/

/-- The host reads byte `k` of the SpectrumData slice that the last RX_COLLECT returned (R61, R294). Outside its
validity window the read faults (R356, U7). Reading changes nothing. -/
def State.readSlice (s : State) (k : Nat) : Except Fault Byte :=
  match s.slice with
  | none => .error .expiredSlice
  | some v =>
    if v.len ≤ k then .error .outOfRange
    else if s.size v.buf < v.off + v.len then .error .outOfRange
    else match (s.mem v.buf).get (v.off + k) with
      | none => .error .unwrittenRead
      | some b => .ok b

/-- The reset input (R350): the state after power-on, with this instance's configuration. What the host has still to
present stays on the port (log 9). -/
def hardwareReset (s : State) : State := (State.resetWith s.cfg).setInputs s.inputs

end Sys2Proof.Machine
end

