-- ==== Sys2Proof/Machine/Operands.lean ====
section
/-! DEFINITION. Accepting a command: operand lanes and kinds (Decode.lean), the length bound of the instance (R95,
R97), and what a refused command leaves. -/

namespace Sys2Proof.Machine

/-- The command the block accepts, or the reason it refuses (R93, R95, R97). -/
def accept (cfg : Config) (c : Command) : Except Reject Instr :=
  match decode c with
  | .error r => .error r
  | .ok i => if i.wellFormed cfg.opndMax then .ok i else .error .operandTooLong

/-- What a refused command leaves (R97): it is gone from the port and the response is {accepted = 0}; no state
changes and no byte is emitted. -/
def refusedNext (s : State) : State := (s.setInputs s.inputs.tail).respond .refused

/-- The host presents these inputs after those already on the port. -/
def State.present (s : State) (l : List PortInput) : State := s.setInputs (s.inputs ++ l)

end Sys2Proof.Machine
end

