-- ==== Sys2Proof/Machine/Flags.lean ====
section
/-! DEFINITION. The flags of R34 (ready, pending-escape, last-START position) and the STATUS output (R36). -/

namespace Sys2Proof.Machine

/-- The numeric value of rx_st: IDLE 0, FRAME_OPEN 1, FRAME_READY 2, OVERFLOW 3 (R31). -/
def RxState.code : RxState → BitVec 2
  | .idle => 0
  | .frameOpen => 1
  | .frameReady => 2
  | .overflow => 3

/-- The ready flag, `rx_st == FRAME_READY` (R34, R288). -/
def State.ready (s : State) : Bool := decide (s.rxSt = .frameReady)

/-- W = ceil(log2(cap + 1)): the bits a count 0..cap needs (R36). -/
def countWidth (cap : Nat) : Nat := if cap = 0 then 0 else Nat.log2 cap + 1

/-- The STATUS output: rx_state in bits [1:0], rx_count in bits [W+1:2] (R36). Reading it has no effect. -/
def State.status (s : State) : BitVec (2 + countWidth s.cfg.rxCap) :=
  BitVec.ofNat (2 + countWidth s.cfg.rxCap) (s.rxSt.code.toNat + 4 * s.rxWr)

/-- One byte of ESC_DECODE: the pending-escape flag after it, and the byte emitted, if any (R171, R172). -/
def pendingEscape (pend : Bool) (b : Byte) : Bool × Option Byte :=
  if b = escapeByte then (true, none)
  else (false, some (if pend then b + escapeByte else b))

/-- The last-START position after the byte `b` at index `i` (R211, R212). -/
def lastStart (last : Option Nat) (i : Nat) (b : Byte) : Option Nat := if b = startByte then some i else last

end Sys2Proof.Machine
end

