-- ==== Sys2Proof/Machine/Esc.lean ====
section
/-! DEFINITION. The escape codec (42_escape_codec.md). -/

namespace Sys2Proof.Machine

/-- The encoding of one byte (R102, R161). -/
def escByte (b : Byte) : List Byte := if isReserved b then [escapeByte, b - escapeByte] else [b]

/-- The loop of `esc_encode` (R161). -/
def escBytes : List Byte → List Byte
  | [] => []
  | b :: xs => escByte b ++ escBytes xs

/-- `esc_encode(plain, cap)` (R161): the capacity is checked once, against the worst case (R162). -/
def escEncode (plain : List Byte) (cap : Nat) : Res (List Byte) :=
  if cap < 2 * plain.length then raise .notEnoughData else .ok (escBytes plain)

/-- The loop of `esc_decode` from a pending-escape flag (R171): a flag left set at the end is discarded (R173). -/
def unescBytes : Bool → List Byte → List Byte
  | _, [] => []
  | pend, b :: xs =>
    match pendingEscape pend b with
    | (pend', none) => unescBytes pend' xs
    | (pend', some out) => out :: unescBytes pend' xs

/-- `esc_decode(enc, cap)` (R171): the flag starts at 0; the capacity check is R175. -/
def escDecode (enc : List Byte) (cap : Nat) : Res (List Byte) :=
  if cap < enc.length then raise .notEnoughData else .ok (unescBytes false enc)

/-- ESC_ENCODE (R161, R163). -/
def execEscEncode (plain : Plain) (cap : Nat) (s : State) : Host.Outcome State Fault Refusal :=
  answer s ((escEncode plain.bytes cap).map fun out => some (.encoded ⟨out⟩))

/-- ESC_DECODE (R171, R176). -/
def execEscDecode (enc : Encoded) (cap : Nat) (s : State) : Host.Outcome State Fault Refusal :=
  answer s ((escDecode enc.bytes cap).map fun out => some (.plain ⟨out⟩))

end Sys2Proof.Machine
end

