-- ==== Sys2Proof/Machine/Crc.lean ====
section
/-! DEFINITION. The CRC-16 evaluator (41_crc16.md). -/

namespace Sys2Proof.Machine

/-- "initial value 0xFFFF" (R9, R141). -/
def crcInit : U16 := 0xFFFF

/-- One byte of the CRC (R141): the byte-wise recurrence, every value truncated to its width. -/
def crcStep (crc : U16) (b : Byte) : U16 :=
  let x : Byte := hiByte crc ^^^ b
  let y : Byte := x ^^^ (x >>> 4)
  let z : U16 := y.setWidth 16
  (crc <<< 8) ^^^ (z <<< 12) ^^^ (z <<< 5) ^^^ z

/-- `crc16(data)` (R141): no final XOR, no reflection. -/
def crc16 (data : List Byte) : U16 := data.foldl crcStep crcInit

/-- One bit of the division by 0x1021 (R142). -/
def crcBit (crc : U16) : U16 := if crc.getLsbD 15 then (crc <<< 1) ^^^ 0x1021 else crc <<< 1

/-- One byte of the per-bit form (R142): eight bits, the most significant first. -/
def crcByteBitwise (crc : U16) (b : Byte) : U16 := crcBit^[8] (crc ^^^ ((b.setWidth 16 : U16) <<< 8))

/-- `crc16_bitwise(data)` (R142). -/
def crc16Bitwise (data : List Byte) : U16 := data.foldl crcByteBitwise crcInit

/-- The bytes of an operand of either kind; the kind does not affect the result (R140, R147). -/
def seqBytes : ByteSeq → List Byte
  | .plain p => p.bytes
  | .encoded e => e.bytes

/-- CRC16 (R141, R144): always succeeds. -/
def execCrc16 (data : ByteSeq) (s : State) : Host.Outcome State Fault Refusal :=
  answer s (.ok (some (.u16 (crc16 (seqBytes data)))))

end Sys2Proof.Machine
end

