-- ==== Sys2Proof/Machine/Frm.lean ====
section
/-! DEFINITION. The frame codec: serialize, deserialize, extract (43_frame_codec.md). -/

namespace Sys2Proof.Machine

/-- START, id and payload: what the CRC of a frame covers (R145). -/
def frameBody (id : U16) (p : List Byte) : List Byte := [startByte, loByte id, hiByte id] ++ p

/-- The CRC of a frame (R145). -/
def frameCrc (id : U16) (p : List Byte) : U16 := crc16 (frameBody id p)

/-- The trailer: crc_lo, crc_hi, END (R100). -/
def frameTrailer (crc : U16) : List Byte := [loByte crc, hiByte crc, endByte]

/-- `frm_serialize(id, p, cap)` (R192). -/
def frmSerialize (id : U16) (p : List Byte) (cap : Nat) : Res (List Byte) :=
  if cap < p.length + 6 then raise .notEnoughData
  else .ok (frameBody id p ++ frameTrailer (crc16 (frameBody id p)))

/-- `frm_deserialize(d)` (R201), its checks in that order (R202). Every index is checked (R12). -/
def frmDeserialize (d : List Byte) : Res Frame :=
  let m := d.length
  if m < 6 then raise .notEnoughData
  else
    (byteAt d (m - 1)).bind fun last =>
    if last ≠ endByte then raise .invalidMagic
    else
      (byteAt d (m - 3)).bind fun crcLo => (byteAt d (m - 2)).bind fun crcHi =>
      (sliceOf d 0 (m - 3)).bind fun rem =>
      (byteAt rem 0).bind fun first =>
      if first ≠ startByte then raise .invalidMagic
      else if crc16 rem ≠ le16 crcLo crcHi then raise .invalidCrc
      else
        (byteAt rem 1).bind fun idLo => (byteAt rem 2).bind fun idHi =>
        (sliceOf rem 3 (m - 3)).map fun payload =>
          { msgId := le16 idLo idHi, payload := ⟨payload⟩, crc := le16 crcLo crcHi }

/-- The same procedure through the view primitives R201 names beside its lines (drop_one, drop_two, take_one,
take_two; R11). -/
def frmDeserializeByViews (d : List Byte) : Res Frame :=
  let v := Cursor.whole d
  if v.size < 6 then raise .notEnoughData
  else
    v.dropOne.bind fun (last, v) =>
    if last ≠ endByte then raise .invalidMagic
    else
      v.dropTwo.bind fun (stored, v) =>
      v.bytes.bind fun rem =>
      v.takeOne.bind fun (first, v) =>
      if first ≠ startByte then raise .invalidMagic
      else if crc16 rem ≠ stored then raise .invalidCrc
      else
        v.takeTwo.bind fun (id, v) =>
        v.bytes.map fun payload => { msgId := id, payload := ⟨payload⟩, crc := stored }

/-- The scan of `frm_extract` from index `i` with last-START position `last` (R211): offset and length of the frame,
none when no END follows a START. An END before any START is skipped (R213). -/
def frmScan : Nat → Option Nat → List Byte → Option (Nat × Nat)
  | _, _, [] => none
  | i, last, b :: xs =>
    if b = endByte then
      match last with
      | some o => some (o, i - o + 1)
      | none => frmScan (i + 1) none xs
    else frmScan (i + 1) (lastStart last i b) xs

/-- `frm_extract(s)` (R211), with the check that cannot fire kept as the source states it (R214, U4). -/
def frmExtract (xs : List Byte) : Res (Nat × Nat × List Byte) :=
  match frmScan 0 none xs with
  | none => raise .incomplete
  | some (o, l) =>
    if xs.length < o + l then raise .notEnoughData
    else (sliceOf xs o (o + l)).map fun bytes => (o, l, bytes)

/-- FRM_SERIALIZE (R192, R193). -/
def execFrmSerialize (id : U16) (payload : Plain) (cap : Nat) (s : State) : Host.Outcome State Fault Refusal :=
  answer s ((frmSerialize id payload.bytes cap).map fun out => some (.plain ⟨out⟩))

/-- FRM_DESERIALIZE (R201, R204). -/
def execFrmDeserialize (data : Plain) (s : State) : Host.Outcome State Fault Refusal :=
  answer s ((frmDeserialize data.bytes).map fun f => some (.frame f))

/-- FRM_EXTRACT (R211, R214). -/
def execFrmExtract (stream : Encoded) (s : State) : Host.Outcome State Fault Refusal :=
  answer s ((frmExtract stream.bytes).map fun (o, l, bytes) => some (.view o l ⟨bytes⟩))

end Sys2Proof.Machine
end

