-- ==== Sys2Proof/Machine/Reg.lean ====
section
/-! DEFINITION. The typed-message registry (44_registry.md). -/

namespace Sys2Proof.Machine

/-- The fixed id of each variant (R115). -/
def msgId : Msg → U16
  | .heartbeat _ => 0
  | .ack _ _ => 1
  | .setFrequency _ _ => 2
  | .startStreaming _ => 3
  | .spectrumData _ => 4

/-- `id ∈ REG`, compared as a whole u16; ids 5 to 65535 name no message (R8, R113). -/
def registered (r : RegSet) (id : U16) : Bool :=
  match id.toNat with
  | 0 => r.heartbeat
  | 1 => r.ack
  | 2 => r.setFrequency
  | 3 => r.startStreaming
  | 4 => r.spectrumData
  | _ => false

/-- `LE16(b, i)`, a fault out of range (R12). -/
def le16At (b : List Byte) (i : Nat) : Res U16 :=
  (byteAt b i).bind fun b0 => (byteAt b (i + 1)).map fun b1 => le16 b0 b1

/-- `LE32(b, i)`, a fault out of range (R12). -/
def le32At (b : List Byte) (i : Nat) : Res U32 :=
  (byteAt b i).bind fun b0 => (byteAt b (i + 1)).bind fun b1 =>
    (byteAt b (i + 2)).bind fun b2 => (byteAt b (i + 3)).map fun b3 => le32 b0 b1 b2 b3

/-- `reg_decode(id, b, REG)` (R231): the id is checked before the length (R232); a fixed-layout variant is decoded only
from exactly its size (R236). -/
def regDecode (id : U16) (b : List Byte) (reg : RegSet) : Res Msg :=
  if ¬ registered reg id then raise .unknownMsgId
  else match id.toNat with
    | 0 => if b.length ≠ 1 then raise .incorrectAlignment else (byteAt b 0).map fun x => .heartbeat x
    | 1 =>
      if b.length ≠ 3 then raise .incorrectAlignment
      else (le16At b 0).bind fun i => (byteAt b 2).map fun e => .ack i e
    | 2 =>
      if b.length ≠ 8 then raise .incorrectAlignment
      else (le32At b 0).bind fun f => (le32At b 4).map fun p => .setFrequency f p
    | 3 => if b.length ≠ 4 then raise .incorrectAlignment else (le32At b 0).map fun c => .startStreaming c
    | 4 => .ok (.spectrumData b)
    | _ => raise .unknownMsgId

/-- `reg_encode(m)` (R246). -/
def regEncode : Msg → List Byte
  | .heartbeat seq => [seq]
  | .ack id error => bytesLE16 id ++ [error]
  | .setFrequency minFreq stepFreq => bytesLE32 minFreq ++ bytesLE32 stepFreq
  | .startStreaming count => bytesLE32 count
  | .spectrumData amplitudes => amplitudes

/-- REG_DECODE_PAYLOAD (R231, R238): the registered set is REG_RX (R230). -/
def execRegDecodePayload (id : U16) (bytes : Plain) (s : State) : Host.Outcome State Fault Refusal :=
  answer s ((regDecode id bytes.bytes s.cfg.regRx).map fun m => some (.msg m none))

/-- REG_ENCODE_PAYLOAD (R246, R247): consults no registry and never fails. -/
def execRegEncodePayload (m : Msg) (s : State) : Host.Outcome State Fault Refusal :=
  answer s (.ok (some (.plain ⟨regEncode m⟩)))

end Sys2Proof.Machine
end

