-- ==== Sys2Proof/Machine/Rx.lean ====
section
/-! DEFINITION. The Receiver (46_receiver.md). -/

namespace Sys2Proof.Machine

/-- rx_st after a stored byte (R281, R283). -/
def rxNext (st : RxState) (b : Byte) : RxState :=
  match st with
  | .idle => if b = startByte then .frameOpen else .idle
  | .frameOpen => if b = endByte then .frameReady else .frameOpen
  | .frameReady => .frameReady
  | .overflow => .overflow

/-- `rx_put(b)` (R281, R282). Whatever the byte does, it ends the borrowed slice's validity (R356). -/
def rxPut (b : Byte) (s : State) : Res State :=
  let s := s.setSlice none
  if s.rxSt = .overflow then .ok s
  else if s.rxWr = s.cfg.rxCap then .ok (s.setRx .overflow s.rxWr)
  else (s.memWrite .acc s.rxWr 1 [b]).map fun s => s.setRx (rxNext s.rxSt b) (s.rxWr + 1)

/-- RX_PUT (R281, R285): never fails. -/
def execRxPut (b : Byte) (s : State) : Host.Outcome State Fault Refusal :=
  match rxPut b s with
  | .ok t => answer t (.ok none)
  | .error e => answer s (.error e)

/-- RX_READY (R288): no state changes. -/
def execRxReady (s : State) : Host.Outcome State Fault Refusal := answer s (.ok (some (.bit s.ready)))

/-- The slice a collected message borrows: SpectrumData's amplitudes are the view (RXD, 3, len(P) - 6) (R294). -/
def borrowOf (m : Msg) (decodedLen : Nat) : Option View :=
  match m with
  | .spectrumData _ => some { buf := .rxd, off := 3, len := decodedLen - 6 }
  | _ => none

/-- `rx_pipeline(S)` (R293): the first failing stage ends it (R295). -/
def rxPipeline (stream : List Byte) (s : State) : Res (State × Msg × Option View) :=
  (frmExtract stream).bind fun (_, _, slice) =>
  (escDecode slice s.cfg.rxCap).bind fun p =>
  (s.memWrite .rxd 0 p.length p).bind fun s =>
  (s.memRead .rxd 0 p.length).bind fun p' =>
  (frmDeserialize p').bind fun fr =>
  (regDecode fr.msgId fr.payload.bytes s.cfg.regRx).map fun m => (s, m, borrowOf m p.length)

/-- The ready branch of `rx_collect()`: reset before decoding (R291, R292), then the pipeline. After a failed
pipeline RXD is unspecified (U6, log 4). -/
def rxCollectReady (s : State) : Host.Outcome State Fault Refusal :=
  match s.memRead .acc 0 s.rxWr with
  | .error e => answer s (.error e)
  | .ok stream =>
    let s := s.setRx .idle 0
    match rxPipeline stream s with
    | .ok (t, m, v) => answer (t.setSlice v) (.ok (some (.msg m v)))
    | .error e => answer (s.forget .rxd) (.error e)

/-- RX_COLLECT (R291, R296, R297). It ends the validity of an earlier slice in every case (R356). -/
def execRxCollect (s : State) : Host.Outcome State Fault Refusal :=
  let s := s.setSlice none
  match s.rxSt with
  | .overflow => answer (s.setRx .idle 0) (raise .outOfMemory)
  | .idle => answer s (raise .messageNotReady)
  | .frameOpen => answer s (raise .messageNotReady)
  | .frameReady => rxCollectReady s

/-- RX_RESET (R301, R302): the receiver alone; ACC and RXD contents are left as they are. -/
def execRxReset (s : State) : Host.Outcome State Fault Refusal :=
  answer ((s.setSlice none).setRx .idle 0) (.ok none)

end Sys2Proof.Machine
end

