-- ==== Sys2Proof/Machine/Tx.lean ====
section
/-! DEFINITION. The Sender (45_sender.md). -/

namespace Sys2Proof.Machine

/-- The wire stream of a message (R103): the id and the payload escaped, START, the CRC and END not (R264). -/
def wire (id : U16) (p : List Byte) : List Byte :=
  [startByte] ++ escBytes ([loByte id, hiByte id] ++ p) ++ frameTrailer (frameCrc id p)

/-- `tx_send(m)` (R261), step by step through SCR and ENCB; every check is made before the first emit (R262). -/
def txSend (m : Msg) (s : State) : Res State :=
  if ¬ registered s.cfg.regTx (msgId m) then raise .unknownMsgId
  else
    let p := regEncode m
    let n := p.length
    (frmSerialize (msgId m) p s.cfg.txCap).bind fun f =>
    (s.memWrite .scr 0 (n + 6) f).bind fun s =>
    (s.memRead .scr 1 (n + 2)).bind fun span =>
    (escEncode span s.cfg.txEncCap).bind fun e =>
    (s.memWrite .encb 0 e.length e).bind fun s =>
    (s.memRead .encb 0 e.length).bind fun e' =>
    (s.memRead .scr (n + 3) 3).map fun trailer =>
    s.emit ([startByte] ++ e' ++ trailer)

/-- What a failed TX_SEND leaves (R262, R323): nothing emitted; SCR and ENCB unspecified (log 3). -/
def txFailed (s : State) : State := (s.forget .scr).forget .encb

/-- TX_SEND (R261, R262, R266). -/
def execTxSend (m : Msg) (s : State) : Host.Outcome State Fault Refusal :=
  match txSend m s with
  | .ok t => answer t (.ok none)
  | .error e => answer (txFailed s) (.error e)

end Sys2Proof.Machine
end

