-- ==== Sys2Proof/Machine/Dispatch.lean ====
section
/-! DEFINITION. Dispatch: one arm per command. -/

namespace Sys2Proof.Machine

def exec (i : Instr) (s : State) : Host.Outcome State Fault Refusal :=
  match i with
  | .crc16 data => Sys2Proof.Machine.execCrc16 data s
  | .escEncode plain cap => Sys2Proof.Machine.execEscEncode plain cap s
  | .escDecode enc cap => Sys2Proof.Machine.execEscDecode enc cap s
  | .frmSerialize id payload cap => Sys2Proof.Machine.execFrmSerialize id payload cap s
  | .frmDeserialize data => Sys2Proof.Machine.execFrmDeserialize data s
  | .frmExtract stream => Sys2Proof.Machine.execFrmExtract stream s
  | .regDecodePayload id bytes => Sys2Proof.Machine.execRegDecodePayload id bytes s
  | .regEncodePayload m => Sys2Proof.Machine.execRegEncodePayload m s
  | .txSend m => Sys2Proof.Machine.execTxSend m s
  | .rxPut b => Sys2Proof.Machine.execRxPut b s
  | .rxReady => Sys2Proof.Machine.execRxReady s
  | .rxCollect => Sys2Proof.Machine.execRxCollect s
  | .rxReset => Sys2Proof.Machine.execRxReset s

end Sys2Proof.Machine
end

