-- ==== Sys2Proof/Machine/Step.lean ====
section
/-! DEFINITION. One step: the block takes the next input on its port (R3, R4, R73). -/

namespace Sys2Proof.Machine

/-- One step. With nothing presented the block holds its state (R4, R335; log 8). A refused command is the refusal
outcome (R97). -/
def step (s : State) : Host.Outcome State Fault Refusal :=
  match s.inputs with
  | [] => .next s
  | .reset :: rest => .next (hardwareReset (s.setInputs rest))
  | .command c :: rest =>
    match accept s.cfg c with
    | .error r => .refused (.rejected r)
    | .ok i => exec i (s.setInputs rest)

/-- The port as the host sees it: a step, and where the step refuses the command, the response {accepted = 0} with
nothing else changed (R97, log 6). -/
def serve (s : State) : Host.Outcome State Fault Refusal :=
  match step s with
  | .refused _ => .next (refusedNext s)
  | other => other

/-- The command of a table word presented as the next input (log 7). -/
def State.withFetchWord (s : State) (nbits w : Nat) : State :=
  s.setInputs (.command (tableCommand nbits w) :: s.inputs)

end Sys2Proof.Machine
end

