-- ==== Sys2Proof/Safety.lean ====
section
/-! DEFINITION. What the statements are about: the invariant of a block's state (R42, R38, R63, R322), sequences of
commands, and the host's view of the receiver. -/

namespace Sys2Proof.Machine

/-- What rx_st says of the bytes S = ACC[0..rx_wr) (R42 items 3 to 5). -/
def receiverShape (st : RxState) (S : List Byte) : Prop :=
  match st with
  | .idle => startByte ∉ S
  | .frameOpen => ∃ pre post, S = pre ++ startByte :: post ∧ startByte ∉ pre ∧ endByte ∉ post
  | .frameReady =>
    ∃ pre mid post, S = pre ++ startByte :: (mid ++ endByte :: post) ∧ startByte ∉ pre ∧ endByte ∉ mid
  | .overflow => True

/-- The invariant: a legal configuration (R7), canonical buffers within their sizes (R37, R60), every byte of
ACC[0..rx_wr) written and in range (R38, R42 item 1) and of the shape rx_st says (R42 items 3 to 5), OVERFLOW only
with a full buffer (R42 item 2), a valid slice readable in RXD (R294, R356), a response of the shape R96, R97 and R322
allow. -/
structure State.Inv (s : State) : Prop where
  legal : s.cfg.wf = true
  canonical : ∀ B, (s.mem B).wf (s.size B) = true
  stored : ∃ S, s.memRead .acc 0 s.rxWr = .ok S ∧ receiverShape s.rxSt S
  full : s.rxSt = .overflow → s.rxWr = s.cfg.rxCap
  slice : ∀ v, s.slice = some v → v.buf = .rxd ∧ v.off = 3 ∧ ∃ bs, s.memRead .rxd v.off v.len = .ok bs
  response : ∀ r, s.resp = some r → r.wf = true

/-- The response of a command that succeeds, with its value if it has one (R96). -/
def okResp (v : Option Value) : Option Response := some { accepted := true, err := some .noError, value := v }

/-- The response of a command that fails: the code and no value (R320, R322). -/
def errResp (c : ErrCode) : Option Response := some { accepted := true, err := some c, value := none }

/-- The response to a refused command: accepted = 0, no err, no value (R97). -/
def refusedResp : Option Response := some { accepted := false, err := none, value := none }

/-- Run commands one after another (R73), stopping where one stops. -/
def execSeq : List Instr → State → Host.Outcome State Fault Refusal
  | [], s => .next s
  | i :: is, s =>
    match exec i s with
    | .next t => execSeq is t
    | .fault f => .fault f
    | .refused r => .refused r

/-- RX_PUT of each byte, in order (R99). -/
def putAll (bs : List Byte) : List Instr := bs.map .rxPut

/-- The function-unit commands of R39. -/
def isFunctionUnit : Instr → Bool
  | .crc16 _ => true
  | .escEncode _ _ => true
  | .escDecode _ _ => true
  | .frmSerialize _ _ _ => true
  | .frmDeserialize _ => true
  | .frmExtract _ => true
  | .regDecodePayload _ _ => true
  | .regEncodePayload _ => true
  | .txSend _ => false
  | .rxPut _ => false
  | .rxReady => false
  | .rxCollect => false
  | .rxReset => false

/-- The commands that write the receiver's state (R31, R32, R70). -/
def writesReceiver : Instr → Bool
  | .rxPut _ => true
  | .rxCollect => true
  | .rxReset => true
  | .crc16 _ => false
  | .escEncode _ _ => false
  | .escDecode _ _ => false
  | .frmSerialize _ _ _ => false
  | .frmDeserialize _ => false
  | .frmExtract _ => false
  | .regDecodePayload _ _ => false
  | .regEncodePayload _ => false
  | .txSend _ => false
  | .rxReady => false

/-- Which command may report which code (R321; for RX_COLLECT the codes R298 calls reachable). -/
def mayRaise : Instr → ErrCode → Bool
  | .crc16 _, _ => false
  | .escEncode _ _, c => c == .notEnoughData
  | .escDecode _ _, c => c == .notEnoughData
  | .frmSerialize _ _ _, c => c == .notEnoughData
  | .frmDeserialize _, c => c == .notEnoughData || c == .invalidMagic || c == .invalidCrc
  | .frmExtract _, c => c == .incomplete
  | .regDecodePayload _ _, c => c == .unknownMsgId || c == .incorrectAlignment
  | .regEncodePayload _, _ => false
  | .txSend _, c => c == .unknownMsgId || c == .notEnoughData
  | .rxPut _, _ => false
  | .rxReady, _ => false
  | .rxCollect, c => c != .noError && c != .incomplete
  | .rxReset, _ => false

end Sys2Proof.Machine
end

