-- ==== Sys2Proof/Certificates/Slice0/Obligations.lean ====
section
/-! DEFINITION. The statements for the provers. Each docstring names the rules it formalises. -/

open Sys2Proof Sys2Proof.Machine

/-! ## Encoding -/

/-- Decoding an encoded command gives it back, with every operand at every value; within OPND_MAX it is accepted. -/
def Obligations.DecodeOfEncodeIsIdentity : Prop :=
  ∀ i : Instr, decode (encode i) = .ok i ∧
    ∀ cfg : Config, i.wellFormed cfg.opndMax = true → accept cfg (encode i) = .ok i

/-- A command word has one meaning: what decodes to i carries i's word and, in the lanes i has operands for, i's
operands. -/
def Obligations.DecodedCommandHasTheEncodedWord : Prop :=
  ∀ (c : Command) (i : Instr), decode c = .ok i →
    c.word = (encode i).word ∧
    (∀ x, (encode i).opnds.seq = some x → c.opnds.seq = some x) ∧
    (∀ x, (encode i).opnds.id = some x → c.opnds.id = some x) ∧
    (∀ x, (encode i).opnds.cap = some x → c.opnds.cap = some x) ∧
    (∀ x, (encode i).opnds.msg = some x → c.opnds.msg = some x)

/-- R93: a word decodes as a command exactly when it matches a row of the table, and no word matches two rows. -/
def Obligations.WordDecodesExactlyWhenItMatchesOneRow : Prop :=
  ∀ w : Word,
    ((∃ r i, decode { word := w, opnds := r } = .ok i) ↔ ∃ row ∈ commandTable, w &&& row.mask = row.pattern) ∧
    ∀ r₁ ∈ commandTable, ∀ r₂ ∈ commandTable,
      w &&& r₁.mask = r₁.pattern → w &&& r₂.mask = r₂.pattern → r₁ = r₂

/-- A few words written out from R92 decode to the commands they stand for, and reserved words are refused. -/
def Obligations.SampleWordsDecodeAsTheTableSays : Prop :=
  decode { word := 0b0001000000000000, opnds := { OperandRecord.empty with seq := some (.encoded ⟨[1, 2]⟩) } }
      = .ok (.crc16 (.encoded ⟨[1, 2]⟩)) ∧
  decode { word := 0b0100000000000000,
           opnds := { seq := some (.plain ⟨[9]⟩), id := some 0x1234, cap := some 7, msg := none } }
      = .ok (.frmSerialize 0x1234 ⟨[9]⟩ 7) ∧
  decode { word := 0b1001000000000000, opnds := { OperandRecord.empty with msg := some (.ack 2 2) } }
      = .ok (.txSend (.ack 2 2)) ∧
  decode { word := 0b1010000011111101, opnds := OperandRecord.empty } = .ok (.rxPut 0xFD) ∧
  decode { word := 0b1100000000000000, opnds := OperandRecord.empty } = .ok .rxCollect ∧
  decode { word := 0b1010000111111101, opnds := OperandRecord.empty } = .error .reservedField ∧
  decode { word := 0b1011000000000001, opnds := OperandRecord.empty } = .error .immediateField ∧
  decode { word := 0b1110000000000000, opnds := OperandRecord.empty } = .error .reservedOp

/-- R99: RX_PUTS expands to the words 0xA000 | b, in order, and each is RX_PUT of its byte. -/
def Obligations.RxPutsExpandsToRxPutWords : Prop :=
  ∀ bs : List Byte,
    (rxPuts bs).map Command.word = bs.map (fun b => (0xA0 : Byte) ++ b) ∧
    (rxPuts bs).map decode = bs.map (fun b => .ok (.rxPut b))

/-! ## Steps, refusals, reset, STATUS -/

/-- A step takes the command at the head of the port, and where its word and operands are those of a command within
OPND_MAX it is that command's meaning, on the state without it. -/
def Obligations.StepRunsTheDecodedCommand : Prop :=
  ∀ (s : State) (c : Command) (rest : List PortInput) (i : Instr),
    s.inputs = .command c :: rest → decode c = .ok i → i.wellFormed s.cfg.opndMax = true →
    step s = exec i { s with inputs := rest }

/-- The block steps on nothing but a command or a reset: with an empty port it holds its state (model's reading of R4
and R335, log 8). -/
def Obligations.EmptyPortHoldsTheState : Prop :=
  ∀ s : State, s.inputs = [] → step s = .next s

/-- Exactly the commands R97 lists are refused; the refusal gives {accepted = 0} and changes no state. The operand kinds
are R95's. Two clauses are the model's choice: a record with an operand the command does not list is accepted (log 10),
and OPND_MAX does not bound the amplitudes of a Msg (log 11). -/
def Obligations.RefusedExactlyWhenReservedOrOperandsUnfit : Prop :=
  ∀ (s : State) (w : Word) (r : OperandRecord) (rest : List PortInput),
    s.inputs = .command { word := w, opnds := r } :: rest →
    let op := (w.extractLsb' 12 4).toNat
    let fitsMax (n : Nat) : Prop := ∀ k, s.cfg.opndMax = some k → n ≤ k
    let plainFits : Prop := ∃ p : Plain, r.seq = some (.plain p) ∧ fitsMax p.bytes.length
    let encodedFits : Prop := ∃ e : Encoded, r.seq = some (.encoded e) ∧ fitsMax e.bytes.length
    let operandsFit : Prop :=
      (op = 0x1 ∧ (plainFits ∨ encodedFits)) ∨
      (op = 0x2 ∧ plainFits ∧ r.cap.isSome) ∨
      (op = 0x3 ∧ encodedFits ∧ r.cap.isSome) ∨
      (op = 0x4 ∧ r.id.isSome ∧ plainFits ∧ r.cap.isSome) ∨
      (op = 0x5 ∧ plainFits) ∨
      (op = 0x6 ∧ encodedFits) ∨
      (op = 0x7 ∧ r.id.isSome ∧ plainFits) ∨
      (op = 0x8 ∧ r.msg.isSome) ∨
      (op = 0x9 ∧ r.msg.isSome) ∨
      (0xA ≤ op ∧ op ≤ 0xD)
    let refusedByR97 : Prop :=
      op = 0x0 ∨ op = 0xE ∨ op = 0xF ∨ w.extractLsb' 8 4 ≠ 0 ∨
      (w.extractLsb' 0 8 ≠ 0 ∧ op ≠ 0xA) ∨ ¬ operandsFit
    (refusedByR97 →
      (∃ why, step s = .refused (.rejected why)) ∧
      serve s = .next { s with inputs := rest, resp := refusedResp }) ∧
    (¬ refusedByR97 → ∃ i, decode { word := w, opnds := r } = .ok i ∧ step s = exec i { s with inputs := rest })

/-- R350, R352: the reset input gives IDLE and a cursor of 0, no valid slice, and keeps the configuration; the RX
state after it is the one RX_RESET leaves. -/
def Obligations.ResetInputGivesTheFreshReceiver : Prop :=
  ∀ (s : State) (rest : List PortInput), s.inputs = .reset :: rest →
    ∃ t, step s = .next t ∧ t.rxSt = .idle ∧ t.rxWr = 0 ∧ t.slice = none ∧ t.cfg = s.cfg ∧ t.inputs = rest ∧
      ∀ u, ∃ v, exec .rxReset u = .next v ∧ v.rxSt = t.rxSt ∧ v.rxWr = t.rxWr ∧ v.slice = t.slice

/-- R351: after reset the block takes any command as its first, whatever the configuration, and completes it. -/
def Obligations.AnyCommandCompletesFirstAfterReset : Prop :=
  ∀ (cfg : Config) (i : Instr), cfg.wf = true → i.wellFormed cfg.opndMax = true →
    ∃ t, step ((State.resetWith cfg).present [.command (encode i)]) = .next t ∧ t.resp.isSome = true

/-- R36: STATUS carries rx_st in bits [1:0] and rx_wr in bits [W+1:2], W = ceil(log2(RX_CAP+1)), with the codes of R31;
both are 0 after reset. -/
def Obligations.StatusShowsStateAndCount : Prop :=
  (∀ s : State, s.rxWr ≤ s.cfg.rxCap →
    ((s.status.extractLsb' 0 2 = 0 ↔ s.rxSt = .idle) ∧ (s.status.extractLsb' 0 2 = 1 ↔ s.rxSt = .frameOpen) ∧
     (s.status.extractLsb' 0 2 = 2 ↔ s.rxSt = .frameReady) ∧ (s.status.extractLsb' 0 2 = 3 ↔ s.rxSt = .overflow)) ∧
    (s.status.extractLsb' 2 (countWidth s.cfg.rxCap)).toNat = s.rxWr) ∧
  (∀ cap : Nat, cap + 1 ≤ 2 ^ countWidth cap ∧ ∀ w, cap + 1 ≤ 2 ^ w → countWidth cap ≤ w) ∧
  ∀ cfg : Config, (State.resetWith cfg).status = 0

/-! ## The invariant -/

/-- The state after reset meets the invariant, for every legal configuration. -/
def Obligations.ResetMeetsTheInvariant : Prop :=
  State.reset.Inv ∧ ∀ cfg : Config, cfg.wf = true → (State.resetWith cfg).Inv

/-- Every step keeps the invariant. -/
def Obligations.StepKeepsTheInvariant : Prop :=
  ∀ s t : State, s.Inv → step s = .next t → t.Inv

/-- R320, R12, R38: from a state that meets the invariant every command completes with one response that was accepted, and
no step faults. -/
def Obligations.EveryCommandCompletesWithoutFault : Prop :=
  ∀ s : State, s.Inv →
    (∀ f, step s ≠ .fault f) ∧
    ∀ i : Instr, ∃ t r, exec i s = .next t ∧ t.resp = some r ∧ r.accepted = true ∧ r.err.isSome = true ∧
      (r.value.isSome = true → r.err = some .noError)

/-- R42 items 1 to 5 hold of the state after every step. -/
def Obligations.ReceiverInvariantsHoldAfterEveryStep : Prop :=
  ∀ s t : State, s.Inv → step s = .next t →
    t.rxWr ≤ t.cfg.rxCap ∧
    (t.rxSt = .overflow → t.rxWr = t.cfg.rxCap) ∧
    ∃ S : List Byte, S.length = t.rxWr ∧ (∀ k, (h : k < S.length) → t.acc.get k = some S[k]) ∧
      (t.rxSt = .idle → ∀ b ∈ S, b ≠ 0xFD) ∧
      (t.rxSt = .frameOpen →
        ∃ p : Nat, S[p]? = some 0xFD ∧ (∀ k, k < p → S[k]? ≠ some 0xFD) ∧ ∀ k, p < k → S[k]? ≠ some 0xFE) ∧
      (t.rxSt = .frameReady →
        ∃ p q : Nat, p < q ∧ S[p]? = some 0xFD ∧ (∀ k, k < p → S[k]? ≠ some 0xFD) ∧ S[q]? = some 0xFE ∧
          ∀ k, p < k → k < q → S[k]? ≠ some 0xFE)

/-- Which command reports which error code, by name and by the byte of the response's err field (R321's table), RX_COLLECT
only those R298 calls reachable. -/
def Obligations.ErrorCodesComeOnlyFromTheirCommands : Prop :=
  (∀ (s t : State) (i : Instr) (c : ErrCode), s.Inv → exec i s = .next t → c ≠ .noError → t.resp = errResp c →
    mayRaise i c = true) ∧
  ∀ (s t : State) (i : Instr), s.Inv → exec i s = .next t →
    ∃ r b, t.resp = some r ∧ r.errByte = some b ∧ b.toNat ≤ 8 ∧
      let deserializes : Prop := (∃ d, i = .frmDeserialize d) ∨ i = .rxCollect
      let decodesPayload : Prop := (∃ id p, i = .regDecodePayload id p) ∨ i = .rxCollect
      (b = 1 → deserializes) ∧
      (b = 2 → decodesPayload) ∧
      (b = 3 → deserializes ∨ (∃ p cap, i = .escEncode p cap) ∨ (∃ e cap, i = .escDecode e cap) ∨
        (∃ id p cap, i = .frmSerialize id p cap) ∨ ∃ m, i = .txSend m) ∧
      (b = 4 → deserializes) ∧
      (b = 5 → ∃ d, i = .frmExtract d) ∧
      (b = 6 → decodesPayload ∨ ∃ m, i = .txSend m) ∧
      (b = 7 → i = .rxCollect ∧ s.rxSt = .overflow) ∧
      (b = 8 → i = .rxCollect ∧ (s.rxSt = .idle ∨ s.rxSt = .frameOpen))

/-! ## Whole-machine rules -/

/-- R39: a function-unit command answers the same from every state with the same REG_RX, and changes nothing but the
response. -/
def Obligations.FunctionUnitsReadOnlyOperands : Prop :=
  ∀ (i : Instr) (s t : State), isFunctionUnit i = true → s.cfg.regRx = t.cfg.regRx →
    ∃ r, exec i s = .next { s with resp := some r } ∧ exec i t = .next { t with resp := some r }

/-- No step changes the configuration (R7, R35, R350). -/
def Obligations.NoStepChangesTheConfiguration : Prop :=
  ∀ s t : State, step s = .next t → t.cfg = s.cfg

/-- Only RX_PUT, RX_COLLECT and RX_RESET write the receiver's registers and buffers (R31, R32, R37, R70); no command
takes from the port but the step itself. -/
def Obligations.OnlyReceiverCommandsWriteTheReceiver : Prop :=
  ∀ (i : Instr) (s t : State), exec i s = .next t →
    t.inputs = s.inputs ∧
    (writesReceiver i = false →
      t.rxSt = s.rxSt ∧ t.rxWr = s.rxWr ∧ t.slice = s.slice ∧
      (∀ a, t.acc.get a = s.acc.get a) ∧ ∀ a, t.rxd.get a = s.rxd.get a)

/-- Only TX_SEND emits bytes or writes SCR and ENCB (R37, R70), and bytes already emitted stay in their order (R73). -/
def Obligations.OnlyTxSendEmitsAndOutputGrows : Prop :=
  ∀ (i : Instr) (s t : State), exec i s = .next t →
    (∃ bs, t.txOut = s.txOut ++ bs) ∧
    ((∀ m, i ≠ .txSend m) →
      t.txOut = s.txOut ∧ (∀ a, t.scr.get a = s.scr.get a) ∧ ∀ a, t.encb.get a = s.encb.get a)

/-- R327: in OVERFLOW, RX_PUT drops its byte, and only RX_COLLECT, RX_RESET and the reset input leave OVERFLOW. -/
def Obligations.OverflowIsStickyUntilDrained : Prop :=
  ∀ s : State, s.rxSt = .overflow →
    (∀ b, exec (.rxPut b) s = .next { s with slice := none, resp := okResp none }) ∧
    (∀ i t, exec i s = .next t → (t.rxSt = .overflow ↔ i ≠ .rxCollect ∧ i ≠ .rxReset)) ∧
    ∀ rest t, s.inputs = .reset :: rest → step s = .next t → t.rxSt = .idle

/-- R356: the borrowed slice can be read after every command but RX_PUT, RX_COLLECT and RX_RESET as before it; after
RX_PUT, RX_RESET, a reset, and an RX_COLLECT that returns no SpectrumData, the read stops. The first part needs the
invariant: a slice lies in RXD. -/
def Obligations.SliceValidityWindow : Prop :=
  (∀ (i : Instr) (s t : State), s.Inv → writesReceiver i = false → exec i s = .next t →
    ∀ k, t.readSlice k = s.readSlice k) ∧
  (∀ (b : Byte) (s t : State), exec (.rxPut b) s = .next t → ∀ k, t.readSlice k = .error .expiredSlice) ∧
  (∀ s t : State, exec .rxReset s = .next t → ∀ k, t.readSlice k = .error .expiredSlice) ∧
  (∀ s t : State, exec .rxCollect s = .next t →
    (∀ a v, t.resp ≠ okResp (some (.msg (.spectrumData a) v))) → ∀ k, t.readSlice k = .error .expiredSlice) ∧
  ∀ s k, (hardwareReset s).readSlice k = .error .expiredSlice

/-! ## Buffers and views -/

/-- R63, R60, R12: MemWrite stores its bytes and nothing else, MemRead reads them back, the buffer keeps its canonical
form, and both fault outside the buffer. -/
def Obligations.BufferWriteThenRead : Prop :=
  ∀ (s : State) (B : Buf) (a n : Nat) (xs : List Byte),
    (a + n ≤ s.size B → xs.length = n →
      ∃ t, s.memWrite B a n xs = .ok t ∧ t.memRead B a n = .ok xs ∧
        (∀ k, k < a ∨ a + n ≤ k → (t.mem B).get k = (s.mem B).get k) ∧ (∀ C, C ≠ B → t.mem C = s.mem C) ∧
        ((s.mem B).wf (s.size B) = true → (t.mem B).wf (t.size B) = true) ∧
        t = { s with acc := t.acc, rxd := t.rxd, scr := t.scr, encb := t.encb }) ∧
    (s.size B < a + n →
      s.memWrite B a n xs = .error (.fault .outOfRange) ∧ s.memRead B a n = .error (.fault .outOfRange))

/-- R11, R62: what the view primitives read and which bytes they leave in the view, for every view inside its buffer.
Past the view, and for resize past its buffer, each of them faults (R12, U1; the fault's name is the model's, log 17). -/
def Obligations.ViewPrimitivesConsumeTheirBytes : Prop :=
  ∀ (v : Cursor) (xs : List Byte), v.bytes = .ok xs →
    v.size = xs.length ∧
    (∀ n, n ≤ xs.length →
      (∃ w, v.removePrefix n = .ok w ∧ w.bytes = .ok (xs.drop n)) ∧
      ∃ w, v.removePostfix n = .ok w ∧ w.bytes = .ok (xs.take (xs.length - n))) ∧
    (∀ n, xs.length < n →
      v.removePrefix n = .error (.fault .outOfRange) ∧ v.removePostfix n = .error (.fault .outOfRange)) ∧
    (∀ n, n ≤ xs.length → ∃ w, v.resize n = .ok w ∧ w.bytes = .ok (xs.take n)) ∧
    (∀ n, v.off + n ≤ v.base.length →
      ∃ w, v.resize n = .ok w ∧ w.size = n ∧ w.bytes = .ok ((v.base.drop v.off).take n)) ∧
    (∀ n, v.base.length < v.off + n → v.resize n = .error (.fault .outOfRange)) ∧
    (xs = [] →
      v.front = .error (.fault .outOfRange) ∧ v.back = .error (.fault .outOfRange) ∧
      v.takeOne = .error (.fault .outOfRange) ∧ v.dropOne = .error (.fault .outOfRange)) ∧
    (xs.length < 2 → v.takeTwo = .error (.fault .outOfRange) ∧ v.dropTwo = .error (.fault .outOfRange)) ∧
    (∀ b rest, xs = b :: rest → v.front = .ok b ∧ ∃ w, v.takeOne = .ok (b, w) ∧ w.bytes = .ok rest) ∧
    (∀ b rest, xs = rest ++ [b] → v.back = .ok b ∧ ∃ w, v.dropOne = .ok (b, w) ∧ w.bytes = .ok rest) ∧
    (∀ b₀ b₁ rest, xs = b₀ :: b₁ :: rest → ∃ w, v.takeTwo = .ok (b₁ ++ b₀, w) ∧ w.bytes = .ok rest) ∧
    (∀ b₀ b₁ rest, xs = rest ++ [b₀, b₁] → ∃ w, v.dropTwo = .ok (b₁ ++ b₀, w) ∧ w.bytes = .ok rest) ∧
    ∀ (w : Cursor) (ys : List Byte), w.bytes = .ok ys → v.equal w = .ok (decide (xs = ys))

/-! ## CRC16 -/

/-- R141: the value for no byte, the recurrence for one more byte, and the command's response. -/
def Obligations.Crc16FollowsTheRecurrence : Prop :=
  crc16 [] = 0xFFFF ∧
  (∀ (xs : List Byte) (b : Byte),
    let crc : U16 := crc16 xs
    let x : Byte := crc.extractLsb' 8 8 ^^^ b
    let y : Byte := x ^^^ (x >>> 4)
    let z : U16 := y.setWidth 16
    crc16 (xs ++ [b]) = (crc <<< 8) ^^^ (z <<< 12) ^^^ (z <<< 5) ^^^ z) ∧
  ∀ (xs : List Byte) (s : State),
    exec (.crc16 (.plain ⟨xs⟩)) s = .next { s with resp := okResp (some (.u16 (crc16 xs))) } ∧
    exec (.crc16 (.encoded ⟨xs⟩)) s = .next { s with resp := okResp (some (.u16 (crc16 xs))) }

/-- R142: the byte-wise CRC is the per-bit division by 0x1021, on every sequence. -/
def Obligations.Crc16EqualsPerBitDivision : Prop :=
  ∀ xs : List Byte, crc16 xs = crc16Bitwise xs

/-- R146: the reference vectors with the START-prefixed inputs. -/
def Obligations.Crc16ReferenceVectors : Prop :=
  crc16 [0xFD, 0x00, 0x00] = 28063 ∧ crc16 [0xFD, 0x00, 0x00, 0x01, 0x02, 0x03] = 45278 ∧
  crc16 [0x00, 0x00, 0x00] = 52380 ∧ crc16 [0x00, 0x00, 0x01, 0x02, 0x03] = 28733

/-! ## Escape codec -/

/-- R161, R162, R163: ESC_ENCODE's whole result. -/
def Obligations.EscEncodeEscapesEachReservedByte : Prop :=
  ∀ (plain : Plain) (cap : Nat) (s : State),
    exec (.escEncode plain cap) s =
      if cap < 2 * plain.bytes.length then .next { s with resp := errResp .notEnoughData }
      else .next { s with resp := okResp (some (.encoded ⟨plain.bytes.flatMap fun b =>
        if b = 0xFD ∨ b = 0xFE ∨ b = 0xFC then [0xFC, b - 0xFC] else [b]⟩)) }

/-- R171, R176: ESC_DECODE's whole result, the loop of R171 as a fold over (out, pend). -/
def Obligations.EscDecodeRunsThePendingFlag : Prop :=
  ∀ (enc : Encoded) (cap : Nat) (s : State),
    exec (.escDecode enc cap) s =
      if cap < enc.bytes.length then .next { s with resp := errResp .notEnoughData }
      else .next { s with resp := okResp (some (.plain ⟨(enc.bytes.foldl
        (fun (acc : List Byte × Byte) b =>
          if b = 0xFC then (acc.1, 1) else (acc.1 ++ [b + 0xFC * acc.2], 0)) ([], 0)).1⟩)) }

/-- R178: ESC_DECODE of what ESC_ENCODE answers is the plaintext. -/
def Obligations.EscDecodeInvertsEscEncode : Prop :=
  ∀ (x : List Byte) (c₁ : Nat) (s : State), 2 * x.length ≤ c₁ →
    ∃ y, exec (.escEncode ⟨x⟩ c₁) s = .next { s with resp := okResp (some (.encoded y)) } ∧
      ∀ (c₂ : Nat) (t : State), y.bytes.length ≤ c₂ →
        exec (.escDecode y c₂) t = .next { t with resp := okResp (some (.plain ⟨x⟩)) }

/-- R104, R164: what ESC_ENCODE answers holds no START and no END, every ESCAPE in it is followed by 0, 1 or 2, and its
length is the plaintext's plus the number of reserved bytes. -/
def Obligations.EscapedRegionHoldsNoMarker : Prop :=
  ∀ (x : Plain) (cap : Nat) (s t : State) (y : Encoded),
    exec (.escEncode x cap) s = .next t → t.resp = okResp (some (.encoded y)) →
    (∀ b ∈ y.bytes, b ≠ 0xFD ∧ b ≠ 0xFE) ∧
    (∀ pre post, y.bytes = pre ++ 0xFC :: post → (pre.getLast? ≠ some 0xFC) ∧
      ∃ c rest, post = c :: rest ∧ (c = 0 ∨ c = 1 ∨ c = 2)) ∧
    y.bytes.length = x.bytes.length + (x.bytes.filter fun b => b = 0xFC ∨ b = 0xFD ∨ b = 0xFE).length

/-! ## Frame codec -/

/-- R191, R192, R193: FRM_SERIALIZE's whole result. -/
def Obligations.FrmSerializeBuildsTheFrame : Prop :=
  ∀ (id : U16) (payload : Plain) (cap : Nat) (s : State),
    exec (.frmSerialize id payload cap) s =
      if cap < payload.bytes.length + 6 then .next { s with resp := errResp .notEnoughData }
      else
        let body := [0xFD, id.extractLsb' 0 8, id.extractLsb' 8 8] ++ payload.bytes
        .next { s with resp := okResp (some (.plain
          ⟨body ++ [(crc16 body).extractLsb' 0 8, (crc16 body).extractLsb' 8 8, 0xFE]⟩)) }

/-- R201, R204: FRM_DESERIALIZE's whole result: every sequence is shorter than 6 bytes or of the form below. -/
def Obligations.FrmDeserializeChecksInOrder : Prop :=
  ∀ s : State,
    (∀ d : List Byte, d.length < 6 → exec (.frmDeserialize ⟨d⟩) s = .next { s with resp := errResp .notEnoughData }) ∧
    (∀ d : List Byte, 6 ≤ d.length →
      ∃ (first idLo idHi crcLo crcHi last : Byte) (p : List Byte),
        d = [first, idLo, idHi] ++ p ++ [crcLo, crcHi, last]) ∧
    ∀ (first idLo idHi crcLo crcHi last : Byte) (p : List Byte),
      exec (.frmDeserialize ⟨[first, idLo, idHi] ++ p ++ [crcLo, crcHi, last]⟩) s =
        if last ≠ 0xFE then .next { s with resp := errResp .invalidMagic }
        else if first ≠ 0xFD then .next { s with resp := errResp .invalidMagic }
        else if crc16 ([first, idLo, idHi] ++ p) ≠ crcHi ++ crcLo then .next { s with resp := errResp .invalidCrc }
        else .next { s with resp := okResp (some (.frame
          { msgId := idHi ++ idLo, payload := ⟨p⟩, crc := crcHi ++ crcLo })) }

/-- R201's procedure through the view primitives of R11 (drop_one, drop_two, take_one, take_two) gives the same, and
never reaches outside its view (R12, R203). -/
def Obligations.DeserializeByViewPrimitivesAgrees : Prop :=
  ∀ d : List Byte, frmDeserializeByViews d = frmDeserialize d ∧ ∀ f, frmDeserialize d ≠ .error (.fault f)

/-- R205: FRM_DESERIALIZE of what FRM_SERIALIZE answers is the frame, for every id and payload. -/
def Obligations.FrmDeserializeInvertsFrmSerialize : Prop :=
  ∀ (id : U16) (p : Plain) (cap : Nat) (s : State), p.bytes.length + 6 ≤ cap →
    ∃ d, exec (.frmSerialize id p cap) s = .next { s with resp := okResp (some (.plain d)) } ∧
      d.bytes.length = p.bytes.length + 6 ∧
      ∀ t : State, exec (.frmDeserialize d) t = .next { t with resp := okResp (some (.frame
        { msgId := id, payload := p,
          crc := crc16 ([0xFD, id.extractLsb' 0 8, id.extractLsb' 8 8] ++ p.bytes) })) }

/-- R211, R212, R213: FRM_EXTRACT answers the slice from the last START before the first END that follows a START,
through that END; where no END follows a START it fails INCOMPLETE; every stream is of one of the two forms. -/
def Obligations.FrmExtractTakesTheLastStart : Prop :=
  (∀ (noise dropped content rest : List Byte) (s : State),
    (∀ b ∈ noise, b ≠ 0xFD) → (∀ b ∈ dropped, b ≠ 0xFE) → (∀ b ∈ content, b ≠ 0xFD ∧ b ≠ 0xFE) →
    exec (.frmExtract ⟨noise ++ dropped ++ ([0xFD] ++ content ++ [0xFE]) ++ rest⟩) s =
      .next { s with resp := okResp (some (.view (noise.length + dropped.length) (content.length + 2)
        ⟨[0xFD] ++ content ++ [0xFE]⟩)) }) ∧
  (∀ (noise dropped : List Byte) (s : State),
    (∀ b ∈ noise, b ≠ 0xFD) → (∀ b ∈ dropped, b ≠ 0xFE) →
    exec (.frmExtract ⟨noise ++ dropped⟩) s = .next { s with resp := errResp .incomplete }) ∧
  ∀ xs : List Byte, ∃ noise dropped : List Byte, (∀ b ∈ noise, b ≠ 0xFD) ∧ (∀ b ∈ dropped, b ≠ 0xFE) ∧
    (xs = noise ++ dropped ∨
      ∃ content rest : List Byte, (∀ b ∈ content, b ≠ 0xFD ∧ b ≠ 0xFE) ∧
        xs = noise ++ dropped ++ ([0xFD] ++ content ++ [0xFE]) ++ rest)

/-! ## Registry -/

/-- R231, R232, R234, R236: REG_DECODE_PAYLOAD's whole result, id by id. -/
def Obligations.RegDecodeDispatchesOnTheId : Prop :=
  ∀ (id : U16) (bytes : Plain) (s : State),
    let ok (m : Msg) : Host.Outcome State Fault Refusal := .next { s with resp := okResp (some (.msg m none)) }
    let unknown : Host.Outcome State Fault Refusal := .next { s with resp := errResp .unknownMsgId }
    let misfit : Host.Outcome State Fault Refusal := .next { s with resp := errResp .incorrectAlignment }
    let run := exec (.regDecodePayload id bytes) s
    (4 < id.toNat → run = unknown) ∧
    (id = 0 → s.cfg.regRx.heartbeat = false → run = unknown) ∧
    (id = 0 → s.cfg.regRx.heartbeat = true → bytes.bytes.length ≠ 1 → run = misfit) ∧
    (id = 0 → s.cfg.regRx.heartbeat = true → ∀ b0, bytes.bytes = [b0] → run = ok (.heartbeat b0)) ∧
    (id = 1 → s.cfg.regRx.ack = false → run = unknown) ∧
    (id = 1 → s.cfg.regRx.ack = true → bytes.bytes.length ≠ 3 → run = misfit) ∧
    (id = 1 → s.cfg.regRx.ack = true → ∀ b0 b1 b2, bytes.bytes = [b0, b1, b2] → run = ok (.ack (b1 ++ b0) b2)) ∧
    (id = 2 → s.cfg.regRx.setFrequency = false → run = unknown) ∧
    (id = 2 → s.cfg.regRx.setFrequency = true → bytes.bytes.length ≠ 8 → run = misfit) ∧
    (id = 2 → s.cfg.regRx.setFrequency = true → ∀ b0 b1 b2 b3 b4 b5 b6 b7,
      bytes.bytes = [b0, b1, b2, b3, b4, b5, b6, b7] →
      run = ok (.setFrequency (b3 ++ b2 ++ b1 ++ b0) (b7 ++ b6 ++ b5 ++ b4))) ∧
    (id = 3 → s.cfg.regRx.startStreaming = false → run = unknown) ∧
    (id = 3 → s.cfg.regRx.startStreaming = true → bytes.bytes.length ≠ 4 → run = misfit) ∧
    (id = 3 → s.cfg.regRx.startStreaming = true → ∀ b0 b1 b2 b3, bytes.bytes = [b0, b1, b2, b3] →
      run = ok (.startStreaming (b3 ++ b2 ++ b1 ++ b0))) ∧
    (id = 4 → s.cfg.regRx.spectrumData = false → run = unknown) ∧
    (id = 4 → s.cfg.regRx.spectrumData = true → run = ok (.spectrumData bytes.bytes))

/-- R246, R247: REG_ENCODE_PAYLOAD's whole result; it consults no registry. -/
def Obligations.RegEncodePacksTheFields : Prop :=
  ∀ (m : Msg) (s : State),
    exec (.regEncodePayload m) s = .next { s with resp := okResp (some (.plain ⟨match m with
      | .heartbeat seq => [seq]
      | .ack id error => [id.extractLsb' 0 8, id.extractLsb' 8 8, error]
      | .setFrequency f p =>
        [f.extractLsb' 0 8, f.extractLsb' 8 8, f.extractLsb' 16 8, f.extractLsb' 24 8,
         p.extractLsb' 0 8, p.extractLsb' 8 8, p.extractLsb' 16 8, p.extractLsb' 24 8]
      | .startStreaming c => [c.extractLsb' 0 8, c.extractLsb' 8 8, c.extractLsb' 16 8, c.extractLsb' 24 8]
      | .spectrumData a => a⟩)) }

/-- R248: decoding the encoded payload of a registered message under its id (R115) gives the message. -/
def Obligations.RegDecodeInvertsRegEncode : Prop :=
  ∀ (m : Msg) (s : State), registered s.cfg.regRx (msgId m) = true →
    ∃ p, exec (.regEncodePayload m) s = .next { s with resp := okResp (some (.plain p)) } ∧
      ∀ t : State, t.cfg.regRx = s.cfg.regRx →
        exec (.regDecodePayload (msgId m) p) t = .next { t with resp := okResp (some (.msg m none)) }

/-! ## Sender -/

/-- R261, R263, R103: a TX_SEND whose id is registered and whose two buffers are large enough emits START, the escaped id
and payload, the CRC low byte first, and END; SCR holds the frame, ENCB the escaped span; nothing else changes. -/
def Obligations.TxSendEmitsTheWireStream : Prop :=
  ∀ (m : Msg) (s : State),
    let id := msgId m
    let p := regEncode m
    let body := [0xFD, id.extractLsb' 0 8, id.extractLsb' 8 8] ++ p
    let trailer : List Byte := [(crc16 body).extractLsb' 0 8, (crc16 body).extractLsb' 8 8, 0xFE]
    let e := ([id.extractLsb' 0 8, id.extractLsb' 8 8] ++ p).flatMap fun b =>
      if b = 0xFD ∨ b = 0xFE ∨ b = 0xFC then [0xFC, b - 0xFC] else [b]
    registered s.cfg.regTx id = true → p.length + 6 ≤ s.cfg.txCap → 2 * (p.length + 2) ≤ s.cfg.txEncCap →
    ∃ t, exec (.txSend m) s = .next t ∧
      t.txOut = s.txOut ++ ([0xFD] ++ e ++ trailer) ∧
      t.memRead .scr 0 (p.length + 6) = .ok (body ++ trailer) ∧
      t.memRead .encb 0 e.length = .ok e ∧
      (∀ a, p.length + 6 ≤ a → t.scr.get a = s.scr.get a) ∧
      (∀ a, e.length ≤ a → t.encb.get a = s.encb.get a) ∧
      t = { s with scr := t.scr, encb := t.encb, txOut := t.txOut, resp := okResp none }

/-- R262, R266, R267: a TX_SEND that fails reports UNKNOWN_MSG_ID before any capacity check, else NOT_ENOUGH_DATA, emits
nothing and changes nothing but SCR and ENCB. -/
def Obligations.FailedTxSendEmitsNothing : Prop :=
  ∀ (m : Msg) (s : State),
    (registered s.cfg.regTx (msgId m) = false →
      ∃ scr encb, exec (.txSend m) s =
        .next { s with scr := scr, encb := encb, resp := errResp .unknownMsgId }) ∧
    (registered s.cfg.regTx (msgId m) = true →
      s.cfg.txCap < (regEncode m).length + 6 ∨ s.cfg.txEncCap < 2 * ((regEncode m).length + 2) →
      ∃ scr encb, exec (.txSend m) s =
        .next { s with scr := scr, encb := encb, resp := errResp .notEnoughData })

/-- R265, R105: TX_SEND succeeds exactly under its three conditions, and then emits n + k + 6 bytes. -/
def Obligations.TxSendSucceedsExactlyWhenItFits : Prop :=
  ∀ (m : Msg) (s : State),
    ((∃ t, exec (.txSend m) s = .next t ∧ t.resp = okResp none) ↔
      registered s.cfg.regTx (msgId m) = true ∧ (regEncode m).length + 6 ≤ s.cfg.txCap ∧
        2 * ((regEncode m).length + 2) ≤ s.cfg.txEncCap) ∧
    ∀ t, exec (.txSend m) s = .next t → t.resp = okResp none →
      t.txOut.length = s.txOut.length + (regEncode m).length + 6 +
        (([(msgId m).extractLsb' 0 8, (msgId m).extractLsb' 8 8] ++ regEncode m).filter
          fun b => b = 0xFC ∨ b = 0xFD ∨ b = 0xFE).length

/-! ## Receiver -/

/-- R281, R282: RX_PUT's whole effect in every state with rx_wr ≤ RX_CAP (R32). That the borrowed slice ends is R356. -/
def Obligations.RxPutStoresThenTransitions : Prop :=
  ∀ (b : Byte) (s : State), s.rxWr ≤ s.cfg.rxCap →
    (s.rxSt = .overflow → exec (.rxPut b) s = .next { s with slice := none, resp := okResp none }) ∧
    (s.rxSt ≠ .overflow → s.rxWr = s.cfg.rxCap →
      exec (.rxPut b) s = .next { s with rxSt := .overflow, slice := none, resp := okResp none }) ∧
    (s.rxSt ≠ .overflow → s.rxWr < s.cfg.rxCap →
      ∃ acc, exec (.rxPut b) s = .next
          { s with
            acc := acc
            rxWr := s.rxWr + 1
            rxSt := if s.rxSt = .idle ∧ b = 0xFD then .frameOpen
                    else if s.rxSt = .frameOpen ∧ b = 0xFE then .frameReady else s.rxSt
            slice := none
            resp := okResp none } ∧
        Memory.get acc s.rxWr = some b ∧ ∀ a, a ≠ s.rxWr → Memory.get acc a = s.acc.get a)

/-- R286, R358, R359: once more bytes are put than ACC has room for, the receiver is in OVERFLOW with a full buffer,
whatever it held, and the next RX_COLLECT reports OUT_OF_MEMORY. -/
def Obligations.BytesBeyondCapacityOverflow : Prop :=
  ∀ (bs : List Byte) (s : State), s.rxSt ≠ .overflow → s.rxWr ≤ s.cfg.rxCap →
    s.cfg.rxCap - s.rxWr < bs.length →
    ∃ t u, execSeq (putAll bs) s = .next t ∧ t.rxSt = .overflow ∧ t.rxWr = s.cfg.rxCap ∧
      exec .rxCollect t = .next u ∧ u.resp = errResp .outOfMemory

/-- RX_READY answers 1 exactly in FRAME_READY and changes no state (R288). That word 0xB000 is RX_READY whatever the operand
record, also one that holds operands, is the model's choice (log 10). -/
def Obligations.RxReadyAnswersTheReadyFlag : Prop :=
  (∀ r : OperandRecord, decode { word := 0xB000, opnds := r } = .ok .rxReady) ∧
  ∀ s : State,
    (s.rxSt = .frameReady → exec .rxReady s = .next { s with resp := okResp (some (.bit true)) }) ∧
    (s.rxSt ≠ .frameReady → exec .rxReady s = .next { s with resp := okResp (some (.bit false)) })

/-- R296, R297: RX_COLLECT drains OVERFLOW with OUT_OF_MEMORY; in IDLE and FRAME_OPEN it reports MESSAGE_NOT_READY and
keeps rx_st, rx_wr and ACC, so a second RX_COLLECT after the drain reports MESSAGE_NOT_READY. That an earlier slice ends
in every case is R356. -/
def Obligations.RxCollectWithoutAFrame : Prop :=
  ∀ s : State,
    (s.rxSt = .overflow →
      exec .rxCollect s =
        .next { s with rxSt := .idle, rxWr := 0, slice := none, resp := errResp .outOfMemory } ∧
      execSeq [.rxCollect, .rxCollect] s =
        .next { s with rxSt := .idle, rxWr := 0, slice := none, resp := errResp .messageNotReady }) ∧
    (s.rxSt = .idle ∨ s.rxSt = .frameOpen →
      exec .rxCollect s = .next { s with slice := none, resp := errResp .messageNotReady })

/-- R291, R292, R293, R294: RX_COLLECT of a frame whose stages all succeed returns the message, leaves the decoded frame
in RXD and the receiver reset, and a SpectrumData message borrows (RXD, 3, len(P) - 6). -/
def Obligations.RxCollectReturnsTheMessage : Prop :=
  ∀ (s : State) (S F P : List Byte) (o l : Nat) (fr : Frame) (m : Msg),
    s.rxSt = .frameReady → s.memRead .acc 0 s.rxWr = .ok S →
    frmExtract S = .ok (o, l, F) → escDecode F s.cfg.rxCap = .ok P → frmDeserialize P = .ok fr →
    regDecode fr.msgId fr.payload.bytes s.cfg.regRx = .ok m →
    let borrowed : Option View :=
      match m with
      | .spectrumData _ => some { buf := .rxd, off := 3, len := P.length - 6 }
      | _ => none
    ∃ t, exec .rxCollect s = .next t ∧
      t.memRead .rxd 0 P.length = .ok P ∧ (∀ a, P.length ≤ a → t.rxd.get a = s.rxd.get a) ∧
      t = { s with
            rxSt := .idle
            rxWr := 0
            rxd := t.rxd
            slice := borrowed
            resp := okResp (some (.msg m borrowed)) }

/-- R291, R292, R295: RX_COLLECT of a frame one of whose stages fails reports the first failing stage's code; the
receiver is reset all the same, and nothing but RXD changes besides. -/
def Obligations.RxCollectReportsTheFirstFailingStage : Prop :=
  ∀ (s : State) (S : List Byte) (c : ErrCode),
    s.rxSt = .frameReady → s.memRead .acc 0 s.rxWr = .ok S →
    (frmExtract S = .error (.err c) ∨
     (∃ o l F, frmExtract S = .ok (o, l, F) ∧
       (escDecode F s.cfg.rxCap = .error (.err c) ∨
        ∃ P, escDecode F s.cfg.rxCap = .ok P ∧
          (frmDeserialize P = .error (.err c) ∨
           ∃ fr, frmDeserialize P = .ok fr ∧
             regDecode fr.msgId fr.payload.bytes s.cfg.regRx = .error (.err c))))) →
    ∃ rxd, exec .rxCollect s =
      .next { s with rxSt := .idle, rxWr := 0, rxd := rxd, slice := none, resp := errResp c }

/-- R294, R237: after an RX_COLLECT that returns SpectrumData, the slice is the view (RXD, 3, n) and reading it gives the
amplitudes. -/
def Obligations.CollectedSliceReadsTheAmplitudes : Prop :=
  ∀ (s t : State) (a : List Byte) (v : Option View),
    exec .rxCollect s = .next t → t.resp = okResp (some (.msg (.spectrumData a) v)) →
    v = some { buf := .rxd, off := 3, len := a.length } ∧ t.slice = v ∧
    ∀ k, t.readSlice k = if h : k < a.length then .ok a[k] else .error .outOfRange

/-- R301, R302: RX_RESET from every state, ACC and RXD left as they are; a second one has no further effect. -/
def Obligations.RxResetReinitializesTheReceiver : Prop :=
  ∀ s : State,
    exec .rxReset s = .next { s with rxSt := .idle, rxWr := 0, slice := none, resp := okResp none } ∧
    execSeq [.rxReset, .rxReset] s = exec .rxReset s

/-! ## End to end -/

/-- R300, R299, R212, R213, R360: what TX_SEND emits, put into a freshly reset receiver after stray bytes in which no END
follows a START and before any further bytes, is collected as the message, if neither CRC byte is reserved and it all
fits. -/
def Obligations.SentMessageIsCollected : Prop :=
  ∀ (m : Msg) (s t : State) (noise dropped rest out : List Byte),
    let crc := crc16 ([0xFD, (msgId m).extractLsb' 0 8, (msgId m).extractLsb' 8 8] ++ regEncode m)
    (crc.extractLsb' 0 8 : Byte) ∉ ([0xFC, 0xFD, 0xFE] : List Byte) →
    (crc.extractLsb' 8 8 : Byte) ∉ ([0xFC, 0xFD, 0xFE] : List Byte) →
    registered s.cfg.regRx (msgId m) = true →
    exec (.txSend m) s = .next t → t.resp = okResp none → t.txOut = s.txOut ++ out →
    t.rxSt = .idle → t.rxWr = 0 →
    (∀ b ∈ noise, b ≠ 0xFD) → (∀ b ∈ dropped, b ≠ 0xFE) →
    (noise ++ dropped ++ out ++ rest).length ≤ s.cfg.rxCap →
    ∃ u v, execSeq (putAll (noise ++ dropped ++ out ++ rest) ++ [.rxCollect]) t = .next u ∧
      u.resp = okResp (some (.msg m v)) ∧ u.rxSt = .idle ∧ u.rxWr = 0 ∧ u.txOut = t.txOut

/-- R357: the outcome of collecting the wire stream of (id, p) from a freshly reset receiver, by the classes of the two CRC
bytes. -/
def Obligations.CrcCollisionOutcomes : Prop :=
  ∀ (id : U16) (p : List Byte) (s : State), s.rxSt = .idle → s.rxWr = 0 → (wire id p).length ≤ s.cfg.rxCap →
    ∃ t, execSeq (putAll (wire id p) ++ [.rxCollect]) s = .next t ∧ t.rxSt = .idle ∧ t.rxWr = 0 ∧
      let head : List Byte := [0xFD, id.extractLsb' 0 8, id.extractLsb' 8 8]
      let n := p.length
      let crc := crc16 (head ++ p)
      let lo : Byte := crc.extractLsb' 0 8
      let hi : Byte := crc.extractLsb' 8 8
      let other (b : Byte) : Prop := b ≠ 0xFC ∧ b ≠ 0xFD ∧ b ≠ 0xFE
      let fails (c : ErrCode) : Prop := t.resp = errResp c
      (other lo → other hi →
        (∀ c, regDecode id p s.cfg.regRx = .error (.err c) → fails c) ∧
        ∀ m, regDecode id p s.cfg.regRx = .ok m → ∃ v, t.resp = okResp (some (.msg m v))) ∧
      (lo = 0xFE → (n < 2 → fails .notEnoughData) ∧
        (2 ≤ n → ∀ b0 b1, p = p.take (n - 2) ++ [b0, b1] →
          (crc16 (head ++ p.take (n - 2)) ≠ b1 ++ b0 → fails .invalidCrc) ∧
          (crc16 (head ++ p.take (n - 2)) = b1 ++ b0 →
            (∀ c, regDecode id (p.take (n - 2)) s.cfg.regRx = .error (.err c) → fails c) ∧
            ∀ m, regDecode id (p.take (n - 2)) s.cfg.regRx = .ok m → ∃ v, t.resp = okResp (some (.msg m v))))) ∧
      (lo = 0xFD → fails .notEnoughData) ∧
      (other lo ∨ lo = 0xFC → hi = 0xFD → fails .notEnoughData) ∧
      (other lo → hi = 0xFE → (n = 0 → fails .notEnoughData) ∧
        ∀ b0, p = p.take (n - 1) ++ [b0] → crc16 (head ++ p.take (n - 1)) ≠ lo ++ b0 → fails .invalidCrc) ∧
      (lo = 0xFC → hi = 0xFE → (n < 2 → fails .notEnoughData) ∧ (2 ≤ n → fails .invalidMagic)) ∧
      (lo = 0xFC → other hi → (n = 0 → fails .notEnoughData) ∧
        ∀ b0, p = p.take (n - 1) ++ [b0] → crc16 (head ++ p.take (n - 1)) ≠ (hi + 0xFC) ++ b0 → fails .invalidCrc) ∧
      (lo = 0xFC → hi = 0xFC → (n < 2 → fails .notEnoughData) ∧ (2 ≤ n → fails .invalidMagic)) ∧
      (other lo → hi = 0xFC → (n = 0 → fails .notEnoughData) ∧ (n ≠ 0 → fails .invalidMagic))

/-! ## Error codes -/

/-- R110: the error codes are one byte, with these values, each its own; no other byte is a code (the others are reserved),
and the err byte of a response is one of them. -/
def Obligations.ErrorCodesAreTheBytesOfTheTable : Prop :=
  ErrCode.noError.code = 0 ∧ ErrCode.invalidMagic.code = 1 ∧ ErrCode.incorrectAlignment.code = 2 ∧
  ErrCode.notEnoughData.code = 3 ∧ ErrCode.invalidCrc.code = 4 ∧ ErrCode.incomplete.code = 5 ∧
  ErrCode.unknownMsgId.code = 6 ∧ ErrCode.outOfMemory.code = 7 ∧ ErrCode.messageNotReady.code = 8 ∧
  (∀ (c : ErrCode) (b : Byte), ErrCode.ofCode b = some c ↔ c.code = b) ∧
  (∀ b : Byte, ErrCode.ofCode b = none ↔ 9 ≤ b.toNat) ∧
  (∀ v, okResp v = some { accepted := true, err := ErrCode.ofCode 0, value := v }) ∧
  ∀ (c : ErrCode), (errResp c).bind Response.errByte = some c.code
end

