-- ==== Sys2Proof/Laws/Codec.lean ====
section
/-! SUPPORT. Spec lemmas of the codecs: error-code bytes, byte order, escape encode and decode, the frame scan, serialize and deserialize,
the registry. Each says once what its function answers. -/

namespace Sys2Proof.Machine

/-! Error codes. -/

@[simp] theorem errCode_ofCode_code (c : ErrCode) : ErrCode.ofCode c.code = some c := by cases c <;> rfl

theorem errCode_code_le (c : ErrCode) : c.code.toNat ≤ 8 := by cases c <;> decide

@[simp] theorem errCode_code_inj (c d : ErrCode) : c.code = d.code ↔ c = d :=
  ⟨fun h => Option.some.inj (by simpa using congrArg ErrCode.ofCode h), congrArg _⟩

@[simp] theorem Response.errByte_success (v : Option Value) : (Response.success v).errByte = some 0 := rfl
@[simp] theorem Response.errByte_failure (c : ErrCode) : (Response.failure c).errByte = some c.code := rfl
@[simp] theorem Response.errByte_refused : Response.refused.errByte = none := rfl

/-! Byte order. -/

theorem le16_eq_append (lo hi : Byte) : le16 lo hi = hi ++ lo := by
  apply BitVec.eq_of_getLsbD_eq
  intro i hi'
  refine Eq.trans ?_ (BitVec.getLsbD_append (x := hi) (y := lo) (i := i)).symm
  by_cases h : i < 8
  · simp [le16, h, hi']
  · simp [le16, h, hi', BitVec.getLsbD_of_ge lo i (by omega)]

theorem le32_eq_append (b0 b1 b2 b3 : Byte) : le32 b0 b1 b2 b3 = b3 ++ b2 ++ b1 ++ b0 := by
  apply BitVec.eq_of_getLsbD_eq
  intro i hi
  have e : (b3 ++ b2 ++ b1 ++ b0 : BitVec (8 + 8 + 8 + 8)).getLsbD i =
      if i < 8 then b0.getLsbD i else if i - 8 < 8 then b1.getLsbD (i - 8) else
      if i - 8 - 8 < 8 then b2.getLsbD (i - 8 - 8) else b3.getLsbD (i - 8 - 8 - 8) := by
    rw [BitVec.getLsbD_append, BitVec.getLsbD_append, BitVec.getLsbD_append]
  refine Eq.trans ?_ e.symm
  simp only [le32, BitVec.getLsbD_or, BitVec.getLsbD_shiftLeft, BitVec.getLsbD_setWidth, hi, Nat.sub_sub,
    Nat.reduceAdd, decide_true, Bool.true_and]
  rcases Nat.lt_or_ge i 8 with h | h
  · simp [h, show i < 16 by omega, show i < 24 by omega]
  rcases Nat.lt_or_ge i 16 with h2 | h2
  · simp [show ¬ i < 8 by omega, h2, show i < 24 by omega, show i - 8 < 8 by omega, show i - 8 < 32 by omega,
      BitVec.getLsbD_of_ge b0 i (by omega)]
  rcases Nat.lt_or_ge i 24 with h3 | h3
  · simp [show ¬ i < 8 by omega, show ¬ i < 16 by omega, h3, show ¬ i - 8 < 8 by omega, show i - 16 < 8 by omega,
      show i - 8 < 32 by omega, show i - 16 < 32 by omega, BitVec.getLsbD_of_ge b0 i (by omega),
      BitVec.getLsbD_of_ge b1 (i - 8) (by omega)]
  · simp [show ¬ i < 8 by omega, show ¬ i < 16 by omega, show ¬ i < 24 by omega, show ¬ i - 8 < 8 by omega,
      show ¬ i - 16 < 8 by omega, show i - 8 < 32 by omega, show i - 16 < 32 by omega, show i - 24 < 32 by omega,
      BitVec.getLsbD_of_ge b0 i (by omega), BitVec.getLsbD_of_ge b1 (i - 8) (by omega),
      BitVec.getLsbD_of_ge b2 (i - 16) (by omega)]

theorem le16_bytes (v : U16) : le16 (loByte v) (hiByte v) = v := by
  apply BitVec.eq_of_getLsbD_eq
  intro i hi
  rcases Nat.lt_or_ge i 8 with h | h
  · simp [le16, loByte, hiByte, hi, h]
  · simp [le16, loByte, hiByte, hi, show ¬ i < 8 by omega, show i - 8 < 8 by omega, show 8 + (i - 8) = i by omega]

theorem le32_bytes (v : U32) : le32 (v.extractLsb' 0 8) (v.extractLsb' 8 8) (v.extractLsb' 16 8) (v.extractLsb' 24 8) = v := by
  rw [le32_eq_append]
  apply BitVec.eq_of_getLsbD_eq
  intro i hi
  refine Eq.trans (b := (v.extractLsb' 24 8 ++ v.extractLsb' 16 8 ++ v.extractLsb' 8 8 ++ v.extractLsb' 0 8 : BitVec (8 + 8 + 8 + 8)).getLsbD i) rfl ?_
  rw [BitVec.getLsbD_append, BitVec.getLsbD_append, BitVec.getLsbD_append]
  rcases Nat.lt_or_ge i 8 with h | h
  · simp [h]
  rcases Nat.lt_or_ge i 16 with h2 | h2
  · simp [show ¬ i < 8 by omega, show i - 8 < 8 by omega, show 8 + (i - 8) = i by omega]
  rcases Nat.lt_or_ge i 24 with h3 | h3
  · simp [show ¬ i < 8 by omega, show ¬ i - 8 < 8 by omega, show i - 8 - 8 < 8 by omega, show 16 + (i - 8 - 8) = i by omega]
  · simp [show ¬ i < 8 by omega, show ¬ i - 8 < 8 by omega, show ¬ i - 8 - 8 < 8 by omega, show i - 8 - 8 - 8 < 8 by omega, show 24 + (i - 8 - 8 - 8) = i by omega]

/-! Escape codec. -/

theorem isReserved_iff (b : Byte) : isReserved b = true ↔ b = 0xFD ∨ b = 0xFE ∨ b = 0xFC := by
  simp [isReserved, startByte, endByte, escapeByte, or_assoc]

/-- The encoder's loop maps each byte on its own (R102). -/
theorem escBytes_eq_flatMap (xs : List Byte) : escBytes xs = xs.flatMap escByte := by
  induction xs with
  | nil => rfl
  | cons b xs ih => simp [escBytes, ih]

theorem escBytes_append (xs ys : List Byte) : escBytes (xs ++ ys) = escBytes xs ++ escBytes ys := by
  simp [escBytes_eq_flatMap]

theorem escByte_length (b : Byte) : (escByte b).length = if isReserved b then 2 else 1 := by
  unfold escByte; split <;> rfl

/-- The encoder's output is between the plaintext's length and twice it (R164). -/
theorem escBytes_length_le (xs : List Byte) : (escBytes xs).length ≤ 2 * xs.length := by
  induction xs with
  | nil => simp [escBytes]
  | cons b xs ih =>
    have := escByte_length b
    simp only [escBytes, List.length_append, List.length_cons]
    split at this <;> omega

/-- The bytes of an escaped byte are never START or END (R104). -/
theorem escByte_no_marker (b c : Byte) (h : c ∈ escByte b) : c ≠ startByte ∧ c ≠ endByte := by
  unfold escByte at h
  split at h
  · rename_i hr
    rcases (isReserved_iff b).mp hr with rfl | rfl | rfl <;> revert h <;> revert c <;> decide
  · rename_i hr
    have hn : ¬ (b = 0xFD ∨ b = 0xFE ∨ b = 0xFC) := fun e => hr ((isReserved_iff b).mpr e)
    rw [List.mem_singleton] at h
    subst h
    exact ⟨fun e => hn (.inl e), fun e => hn (.inr (.inl e))⟩

/-- The escaped region holds no START and no END (R104). -/
theorem escBytes_no_marker (xs : List Byte) (c : Byte) (h : c ∈ escBytes xs) : c ≠ startByte ∧ c ≠ endByte := by
  rw [escBytes_eq_flatMap, List.mem_flatMap] at h
  obtain ⟨b, -, hb⟩ := h
  exact escByte_no_marker b c hb

@[simp] theorem unescBytes_nil (p : Bool) : unescBytes p [] = [] := rfl

/-- An ESCAPE sets the flag and emits nothing, pending or not (R171, R172). -/
theorem unescBytes_escape (p : Bool) (xs : List Byte) : unescBytes p (escapeByte :: xs) = unescBytes true xs := by
  simp [unescBytes, pendingEscape]

/-- Any other byte is emitted, plus ESCAPE where the flag is set, and clears the flag (R171, R174). -/
theorem unescBytes_other (p : Bool) (b : Byte) (xs : List Byte) (h : b ≠ escapeByte) :
    unescBytes p (b :: xs) = (if p then b + escapeByte else b) :: unescBytes false xs := by
  simp [unescBytes, pendingEscape, h]

/-- Decoding never makes a sequence longer (R175). -/
theorem unescBytes_length_le (p : Bool) (xs : List Byte) : (unescBytes p xs).length ≤ xs.length := by
  induction xs generalizing p with
  | nil => simp
  | cons b xs ih =>
    by_cases h : b = escapeByte
    · subst h
      rw [unescBytes_escape]
      have := ih true
      simp only [List.length_cons]
      omega
    · rw [unescBytes_other p b xs h]
      have := ih false
      simp only [List.length_cons]
      omega

/-- An escaped byte decodes to itself and leaves the flag clear (R178). -/
theorem unescBytes_escByte (b : Byte) (ys : List Byte) :
    unescBytes false (escByte b ++ ys) = b :: unescBytes false ys := by
  unfold escByte
  split
  · rename_i hr
    rw [List.cons_append, unescBytes_escape, List.cons_append, List.nil_append, unescBytes_other _ _ _ ?_]
    · simp
    · rcases (isReserved_iff b).mp hr with rfl | rfl | rfl <;> decide
  · rename_i hr
    rw [List.cons_append, List.nil_append, unescBytes_other]
    · simp
    · exact fun e => hr ((isReserved_iff b).mpr (.inr (.inr e)))

/-- An escaped region decodes to its plaintext, whatever follows it (R178). -/
theorem unescBytes_escBytes_append (xs ys : List Byte) :
    unescBytes false (escBytes xs ++ ys) = xs ++ unescBytes false ys := by
  induction xs with
  | nil => rfl
  | cons b xs ih => rw [escBytes, List.append_assoc, unescBytes_escByte, ih, List.cons_append]

/-! The frame scan (R211). -/

/-- Bytes before the first START are passed over, END included (R213). -/
theorem frmScan_noise (i : Nat) (noise xs : List Byte) (h : startByte ∉ noise) :
    frmScan i none (noise ++ xs) = frmScan (i + noise.length) none xs := by
  induction noise generalizing i with
  | nil => rfl
  | cons b noise ih =>
    simp only [List.mem_cons, not_or] at h
    have hb : b ≠ startByte := fun e => h.1 e.symm
    have hstep : frmScan i none (b :: (noise ++ xs)) = frmScan (i + 1) none (noise ++ xs) := by
      by_cases he : b = endByte
      · simp [frmScan, he]
      · simp [frmScan, he, lastStart, hb]
    rw [List.cons_append, hstep, ih (i + 1) h.2, List.length_cons]
    congr 1
    omega

/-- The last-START position after bytes that hold no END (R212). -/
def scanLast : Nat → Option Nat → List Byte → Option Nat
  | _, last, [] => last
  | i, last, b :: xs => scanLast (i + 1) (lastStart last i b) xs

/-- Bytes that hold no END only move the last-START position (R212). -/
theorem frmScan_open (i : Nat) (last : Option Nat) (ys xs : List Byte) (h : endByte ∉ ys) :
    frmScan i last (ys ++ xs) = frmScan (i + ys.length) (scanLast i last ys) xs := by
  induction ys generalizing i last with
  | nil => rfl
  | cons b ys ih =>
    simp only [List.mem_cons, not_or] at h
    have hb : b ≠ endByte := fun e => h.1 e.symm
    rw [List.cons_append, show frmScan i last (b :: (ys ++ xs)) = frmScan (i + 1) (lastStart last i b) (ys ++ xs) by
      simp [frmScan, hb], ih _ _ h.2, scanLast, List.length_cons]
    congr 1
    omega

theorem scanLast_append (i : Nat) (last : Option Nat) (ys xs : List Byte) :
    scanLast i last (ys ++ xs) = scanLast (i + ys.length) (scanLast i last ys) xs := by
  induction ys generalizing i last with
  | nil => rfl
  | cons b ys ih =>
    rw [List.cons_append, scanLast, ih, scanLast, List.length_cons]
    congr 1
    omega

/-- Without a START the last-START position stays. -/
theorem scanLast_content (i : Nat) (last : Option Nat) (ys : List Byte) (h : startByte ∉ ys) :
    scanLast i last ys = last := by
  induction ys generalizing i with
  | nil => rfl
  | cons b ys ih =>
    simp only [List.mem_cons, not_or] at h
    rw [scanLast, lastStart, if_neg (fun e => h.1 e.symm), ih _ h.2]

/-- Bytes that hold a START split at the last one. -/
theorem exists_last_start (xs : List Byte) (h : startByte ∈ xs) :
    ∃ dropped content, xs = dropped ++ startByte :: content ∧ startByte ∉ content := by
  induction xs with
  | nil => cases h
  | cons b xs ih =>
    by_cases hx : startByte ∈ xs
    · obtain ⟨dropped, content, rfl, hc⟩ := ih hx
      exact ⟨b :: dropped, content, rfl, hc⟩
    · have hb : startByte = b := by simpa [hx] using h
      exact ⟨[], xs, by rw [← hb, List.nil_append], hx⟩

/-- The scan of a stream with a complete frame (R211, R212, R213). -/
theorem frmScan_frame (noise dropped content rest : List Byte) (hn : startByte ∉ noise) (hd : endByte ∉ dropped)
    (hs : startByte ∉ content) (he : endByte ∉ content) :
    frmScan 0 none (noise ++ (dropped ++ startByte :: (content ++ endByte :: rest))) =
      some (noise.length + dropped.length, content.length + 2) := by
  have e : dropped ++ startByte :: (content ++ endByte :: rest) =
      (dropped ++ startByte :: content) ++ endByte :: rest := by simp
  have hnoEnd : endByte ∉ dropped ++ startByte :: content := by
    simp only [List.mem_append, List.mem_cons, not_or]
    exact ⟨hd, by decide, he⟩
  rw [frmScan_noise 0 noise _ hn, e, frmScan_open _ _ _ _ hnoEnd, scanLast_append, scanLast,
    scanLast_content _ _ _ hs]
  simp only [lastStart, if_true, frmScan, Option.some.injEq, Prod.mk.injEq, List.length_append, List.length_cons]
  omega

/-- The scan finds a frame in a stream in which an END follows a START (R211). -/
theorem frmScan_ready (pre mid post : List Byte) (hp : startByte ∉ pre) (hm : endByte ∉ mid) :
    frmScan 0 none (pre ++ startByte :: (mid ++ endByte :: post)) ≠ none := by
  obtain ⟨dropped, content, e, hc⟩ := exists_last_start (startByte :: mid) (by simp)
  have hd : endByte ∉ dropped ++ startByte :: content := by
    rw [← e, List.mem_cons, not_or]
    exact ⟨by decide, hm⟩
  simp only [List.mem_append, List.mem_cons, not_or] at hd
  have hs : startByte :: (mid ++ endByte :: post) = dropped ++ startByte :: (content ++ endByte :: post) := by
    rw [← List.cons_append, e, List.append_assoc, List.cons_append]
  rw [hs, frmScan_frame pre dropped content post hp hd.1 hc hd.2.2]
  exact Option.some_ne_none _

/-- The scan of a stream in which no END follows a START (R211). -/
theorem frmScan_incomplete (noise dropped : List Byte) (hn : startByte ∉ noise) (hd : endByte ∉ dropped) :
    frmScan 0 none (noise ++ dropped) = none := by
  have := frmScan_open (0 + noise.length) none dropped [] hd
  rw [List.append_nil] at this
  rw [frmScan_noise 0 noise _ hn, this]
  rfl

/-- What the scan finds lies inside the stream, so neither the check that cannot fire (R214) nor a fault does. -/
theorem frmScan_bounds (i : Nat) (last : Option Nat) (xs : List Byte) (o l : Nat)
    (hl : ∀ p, last = some p → p ≤ i) (h : frmScan i last xs = some (o, l)) :
    o + l ≤ i + xs.length := by
  induction xs generalizing i last with
  | nil => simp [frmScan] at h
  | cons b xs ih =>
    simp only [List.length_cons]
    by_cases hb : b = endByte
    · cases last with
      | none =>
        have := ih (i + 1) none (by simp) (by simpa [frmScan, hb] using h)
        omega
      | some p =>
        have := hl p rfl
        simp only [frmScan, hb, if_true, Option.some.injEq, Prod.mk.injEq] at h
        omega
    · have := ih (i + 1) (lastStart last i b) (fun p hp => by
        unfold lastStart at hp
        split at hp
        · simp only [Option.some.injEq] at hp; omega
        · have := hl p hp; omega) (by simpa [frmScan, hb] using h)
      omega

/-- All that FRM_EXTRACT's function can do (R211, R214): INCOMPLETE, or a slice inside the stream. -/
theorem frmExtract_cases (xs : List Byte) :
    (frmScan 0 none xs = none ∧ frmExtract xs = .error (.err .incomplete)) ∨
    ∃ o l, frmScan 0 none xs = some (o, l) ∧ o + l ≤ xs.length ∧
      frmExtract xs = .ok (o, l, (xs.take (o + l)).drop o) := by
  cases h : frmScan 0 none xs with
  | none => exact .inl ⟨rfl, by simp [frmExtract, h, raise]⟩
  | some r =>
    obtain ⟨o, l⟩ := r
    have hb := frmScan_bounds 0 none xs o l (by simp) h
    refine .inr ⟨o, l, rfl, by omega, ?_⟩
    simp only [frmExtract, h]
    rw [if_neg (by omega)]
    simp [sliceOf, show o + l ≤ xs.length by omega, Except.map]

/-- FRM_EXTRACT's function on a stream with a complete frame. -/
theorem frmExtract_frame (noise dropped content rest : List Byte) (hn : startByte ∉ noise) (hd : endByte ∉ dropped)
    (hs : startByte ∉ content) (he : endByte ∉ content) :
    frmExtract (noise ++ (dropped ++ startByte :: (content ++ endByte :: rest))) =
      .ok (noise.length + dropped.length, content.length + 2, startByte :: (content ++ [endByte])) := by
  rcases frmExtract_cases (noise ++ (dropped ++ startByte :: (content ++ endByte :: rest))) with ⟨h, -⟩ | ⟨o, l, h, -, e⟩
  · rw [frmScan_frame noise dropped content rest hn hd hs he] at h
    exact absurd h (by simp)
  · rw [frmScan_frame noise dropped content rest hn hd hs he] at h
    simp only [Option.some.injEq, Prod.mk.injEq] at h
    obtain ⟨rfl, rfl⟩ := h
    rw [e]
    have h1 : noise ++ (dropped ++ startByte :: (content ++ endByte :: rest)) =
        (noise ++ dropped) ++ ((startByte :: (content ++ [endByte])) ++ rest) := by simp
    have h2 : noise.length + dropped.length + (content.length + 2) =
        (noise ++ dropped).length + (startByte :: (content ++ [endByte])).length := by simp
    rw [h1, h2, List.take_length_add_append, ← List.length_append, List.drop_left, List.take_left]

/-! Serialize and deserialize. -/

/-- A sequence of six bytes or more is three bytes, a payload and three bytes. -/
theorem exists_frame_form (d : List Byte) (h : 6 ≤ d.length) :
    ∃ (first idLo idHi crcLo crcHi last : Byte) (p : List Byte),
      d = [first, idLo, idHi] ++ p ++ [crcLo, crcHi, last] := by
  match d, h with
  | a :: b :: c :: r, h =>
    simp only [List.length_cons] at h
    have hr : r = r.take (r.length - 3) ++ r.drop (r.length - 3) := (List.take_append_drop _ _).symm
    have hl : (r.drop (r.length - 3)).length = 3 := by simp; omega
    match h3 : r.drop (r.length - 3), hl with
    | [x, y, z], _ => exact ⟨a, b, c, x, y, z, r.take (r.length - 3), by rw [h3] at hr; simpa using hr⟩

theorem frmDeserialize_short (d : List Byte) (h : d.length < 6) : frmDeserialize d = .error (.err .notEnoughData) := by
  simp [frmDeserialize, h, raise]

/-- All that FRM_DESERIALIZE's function can do on six bytes or more, its checks in the order of R202. -/
theorem frmDeserialize_form (first idLo idHi crcLo crcHi last : Byte) (p : List Byte) :
    frmDeserialize ([first, idLo, idHi] ++ p ++ [crcLo, crcHi, last]) =
      if last ≠ endByte then .error (.err .invalidMagic)
      else if first ≠ startByte then .error (.err .invalidMagic)
      else if crc16 ([first, idLo, idHi] ++ p) ≠ le16 crcLo crcHi then .error (.err .invalidCrc)
      else .ok { msgId := le16 idLo idHi, payload := ⟨p⟩, crc := le16 crcLo crcHi } := by
  have hlen : ([first, idLo, idHi] ++ p ++ [crcLo, crcHi, last]).length = p.length + 6 := by simp
  have hlast : ([first, idLo, idHi] ++ p ++ [crcLo, crcHi, last])[p.length + 5]? = some last := by
    rw [List.getElem?_append_right (by simp)]; simp
  have hlo : ([first, idLo, idHi] ++ p ++ [crcLo, crcHi, last])[p.length + 3]? = some crcLo := by
    rw [List.getElem?_append_right (by simp)]; simp
  have hhi : ([first, idLo, idHi] ++ p ++ [crcLo, crcHi, last])[p.length + 4]? = some crcHi := by
    rw [List.getElem?_append_right (by simp)]; simp
  have htake : ([first, idLo, idHi] ++ p ++ [crcLo, crcHi, last]).take (p.length + 3) = [first, idLo, idHi] ++ p :=
    List.take_left' (by simp)
  simp only [frmDeserialize, hlen, byteAt, sliceOf, show ¬ p.length + 6 < 6 by omega,
    if_false, show p.length + 6 - 1 = p.length + 5 by omega, show p.length + 6 - 3 = p.length + 3 by omega,
    show p.length + 6 - 2 = p.length + 4 by omega, hlast, hlo, hhi, htake, Except.bind, raise]
  by_cases h1 : last = endByte
  · by_cases h2 : first = startByte
    · by_cases h3 : crc16 ([first, idLo, idHi] ++ p) = le16 crcLo crcHi
      · have h3' : crc16 (startByte :: idLo :: idHi :: p) = le16 crcLo crcHi := by simpa [h2] using h3
        simp [h1, h2, h3', Except.map]
      · have h3' : ¬ crc16 (startByte :: idLo :: idHi :: p) = le16 crcLo crcHi := by simpa [h2] using h3
        simp [h1, h2, h3']
    · simp [h1, h2]
  · simp [h1]

/-- A frame that ends in START, id, payload, CRC and END with the right CRC is the frame (R205). -/
theorem frmDeserialize_frame (id : U16) (p : List Byte) :
    frmDeserialize (frameBody id p ++ frameTrailer (frameCrc id p)) =
      .ok { msgId := id, payload := ⟨p⟩, crc := frameCrc id p } := by
  have := frmDeserialize_form startByte (loByte id) (hiByte id) (loByte (frameCrc id p)) (hiByte (frameCrc id p)) endByte p
  simp only [le16_bytes] at this
  rw [frameBody, frameTrailer, this]
  simp [frameCrc, frameBody]

/-- All that FRM_DESERIALIZE's function can do: it never makes an access out of range (R203, R204). -/
theorem frmDeserialize_cases (d : List Byte) :
    frmDeserialize d = .error (.err .notEnoughData) ∨ frmDeserialize d = .error (.err .invalidMagic) ∨
    frmDeserialize d = .error (.err .invalidCrc) ∨ ∃ f, frmDeserialize d = .ok f ∧ 6 ≤ d.length := by
  rcases Nat.lt_or_ge d.length 6 with h | h
  · exact .inl (frmDeserialize_short d h)
  · obtain ⟨a, b, c, x, y, z, p, rfl⟩ := exists_frame_form d h
    rw [frmDeserialize_form]
    split
    · exact .inr (.inl rfl)
    · split
      · exact .inr (.inl rfl)
      · split
        · exact .inr (.inr (.inl rfl))
        · exact .inr (.inr (.inr ⟨_, rfl, h⟩))

/-! The registry. -/

/-- All that REG_DECODE_PAYLOAD's function can do: it never makes an access out of range (R236). -/
theorem regDecode_cases (id : U16) (b : List Byte) (reg : RegSet) :
    regDecode id b reg = .error (.err .unknownMsgId) ∨ regDecode id b reg = .error (.err .incorrectAlignment) ∨
    ∃ m, regDecode id b reg = .ok m ∧ msgId m = id ∧ registered reg id = true ∧
      (∀ a, m = .spectrumData a → a = b) := by
  by_cases hr : registered reg id = true
  swap
  · exact .inl (by simp [regDecode, hr, raise])
  have hid (k : Nat) (hk : k < 65536) (h : id.toNat = k) : BitVec.ofNat 16 k = id := by
    subst h; simp
  unfold regDecode
  rw [if_neg (by simp [hr])]
  split
  · rename_i h
    split
    · exact .inr (.inl rfl)
    · rename_i hl
      match b, (by simpa using hl : b.length = 1) with
      | [x], _ => exact .inr (.inr ⟨_, rfl, hid 0 (by omega) h, hr, by simp⟩)
  · rename_i h
    split
    · exact .inr (.inl rfl)
    · rename_i hl
      match b, (by simpa using hl : b.length = 3) with
      | [x, y, z], _ => exact .inr (.inr ⟨_, rfl, hid 1 (by omega) h, hr, by simp⟩)
  · rename_i h
    split
    · exact .inr (.inl rfl)
    · rename_i hl
      match b, (by simpa using hl : b.length = 8) with
      | [x, y, z, w, x', y', z', w'], _ => exact .inr (.inr ⟨_, rfl, hid 2 (by omega) h, hr, by simp⟩)
  · rename_i h
    split
    · exact .inr (.inl rfl)
    · rename_i hl
      match b, (by simpa using hl : b.length = 4) with
      | [x, y, z, w], _ => exact .inr (.inr ⟨_, rfl, hid 3 (by omega) h, hr, by simp⟩)
  · rename_i h
    exact .inr (.inr ⟨_, rfl, hid 4 (by omega) h, hr, by rintro a ⟨⟩; rfl⟩)
  · exact .inl rfl

/-- Decoding the encoded payload of a registered message gives it back (R248). -/
theorem regDecode_regEncode (m : Msg) (reg : RegSet) (h : registered reg (msgId m) = true) :
    regDecode (msgId m) (regEncode m) reg = .ok m := by
  unfold regDecode
  rw [if_neg (by simp [h])]
  cases m with
  | heartbeat s => rfl
  | ack i e =>
    have := le16_bytes i
    simp [msgId, regEncode, bytesLE16, le16At, byteAt, Except.bind, Except.map, this]
  | setFrequency f p =>
    have h1 := le32_bytes f
    have h2 := le32_bytes p
    simp [msgId, regEncode, bytesLE32, le32At, byteAt, Except.bind, Except.map, h1, h2]
  | startStreaming c =>
    have h1 := le32_bytes c
    simp [msgId, regEncode, bytesLE32, le32At, byteAt, Except.bind, Except.map, h1]
  | spectrumData a => rfl

end Sys2Proof.Machine
end

