-- ==== Sys2Proof/Laws/State.lean ====
section
/-! SUPPORT. One lemma per field per update of State, and the same for the view of the four buffers. -/

namespace Sys2Proof.Machine

/-! setRx -/

@[simp] theorem State.setRx_cfg (s : State) (st : RxState) (wr : Nat) : (s.setRx st wr).cfg = s.cfg := rfl
@[simp] theorem State.setRx_rxSt (s : State) (st : RxState) (wr : Nat) : (s.setRx st wr).rxSt = st := rfl
@[simp] theorem State.setRx_rxWr (s : State) (st : RxState) (wr : Nat) : (s.setRx st wr).rxWr = wr := rfl
@[simp] theorem State.setRx_acc (s : State) (st : RxState) (wr : Nat) : (s.setRx st wr).acc = s.acc := rfl
@[simp] theorem State.setRx_rxd (s : State) (st : RxState) (wr : Nat) : (s.setRx st wr).rxd = s.rxd := rfl
@[simp] theorem State.setRx_scr (s : State) (st : RxState) (wr : Nat) : (s.setRx st wr).scr = s.scr := rfl
@[simp] theorem State.setRx_encb (s : State) (st : RxState) (wr : Nat) : (s.setRx st wr).encb = s.encb := rfl
@[simp] theorem State.setRx_slice (s : State) (st : RxState) (wr : Nat) : (s.setRx st wr).slice = s.slice := rfl
@[simp] theorem State.setRx_txOut (s : State) (st : RxState) (wr : Nat) : (s.setRx st wr).txOut = s.txOut := rfl
@[simp] theorem State.setRx_resp (s : State) (st : RxState) (wr : Nat) : (s.setRx st wr).resp = s.resp := rfl
@[simp] theorem State.setRx_inputs (s : State) (st : RxState) (wr : Nat) : (s.setRx st wr).inputs = s.inputs := rfl
@[simp] theorem State.setRx_mem (s : State) (st : RxState) (wr : Nat) (B : Buf) : (s.setRx st wr).mem B = s.mem B := by cases B <;> rfl
@[simp] theorem State.setRx_size (s : State) (st : RxState) (wr : Nat) (B : Buf) : (s.setRx st wr).size B = s.size B := by cases B <;> rfl
@[simp] theorem State.setRx_memRead (s : State) (st : RxState) (wr : Nat) (B : Buf) (i n : Nat) :
    (s.setRx st wr).memRead B i n = s.memRead B i n := by cases B <;> rfl

/-! setSlice -/

@[simp] theorem State.setSlice_cfg (s : State) (v : Option View) : (s.setSlice v).cfg = s.cfg := rfl
@[simp] theorem State.setSlice_rxSt (s : State) (v : Option View) : (s.setSlice v).rxSt = s.rxSt := rfl
@[simp] theorem State.setSlice_rxWr (s : State) (v : Option View) : (s.setSlice v).rxWr = s.rxWr := rfl
@[simp] theorem State.setSlice_acc (s : State) (v : Option View) : (s.setSlice v).acc = s.acc := rfl
@[simp] theorem State.setSlice_rxd (s : State) (v : Option View) : (s.setSlice v).rxd = s.rxd := rfl
@[simp] theorem State.setSlice_scr (s : State) (v : Option View) : (s.setSlice v).scr = s.scr := rfl
@[simp] theorem State.setSlice_encb (s : State) (v : Option View) : (s.setSlice v).encb = s.encb := rfl
@[simp] theorem State.setSlice_slice (s : State) (v : Option View) : (s.setSlice v).slice = v := rfl
@[simp] theorem State.setSlice_txOut (s : State) (v : Option View) : (s.setSlice v).txOut = s.txOut := rfl
@[simp] theorem State.setSlice_resp (s : State) (v : Option View) : (s.setSlice v).resp = s.resp := rfl
@[simp] theorem State.setSlice_inputs (s : State) (v : Option View) : (s.setSlice v).inputs = s.inputs := rfl
@[simp] theorem State.setSlice_mem (s : State) (v : Option View) (B : Buf) : (s.setSlice v).mem B = s.mem B := by cases B <;> rfl
@[simp] theorem State.setSlice_size (s : State) (v : Option View) (B : Buf) : (s.setSlice v).size B = s.size B := by cases B <;> rfl
@[simp] theorem State.setSlice_memRead (s : State) (v : Option View) (B : Buf) (i n : Nat) :
    (s.setSlice v).memRead B i n = s.memRead B i n := by cases B <;> rfl

/-! emit -/

@[simp] theorem State.emit_cfg (s : State) (bs : List Byte) : (s.emit bs).cfg = s.cfg := rfl
@[simp] theorem State.emit_rxSt (s : State) (bs : List Byte) : (s.emit bs).rxSt = s.rxSt := rfl
@[simp] theorem State.emit_rxWr (s : State) (bs : List Byte) : (s.emit bs).rxWr = s.rxWr := rfl
@[simp] theorem State.emit_acc (s : State) (bs : List Byte) : (s.emit bs).acc = s.acc := rfl
@[simp] theorem State.emit_rxd (s : State) (bs : List Byte) : (s.emit bs).rxd = s.rxd := rfl
@[simp] theorem State.emit_scr (s : State) (bs : List Byte) : (s.emit bs).scr = s.scr := rfl
@[simp] theorem State.emit_encb (s : State) (bs : List Byte) : (s.emit bs).encb = s.encb := rfl
@[simp] theorem State.emit_slice (s : State) (bs : List Byte) : (s.emit bs).slice = s.slice := rfl
@[simp] theorem State.emit_txOut (s : State) (bs : List Byte) : (s.emit bs).txOut = s.txOut ++ bs := rfl
@[simp] theorem State.emit_resp (s : State) (bs : List Byte) : (s.emit bs).resp = s.resp := rfl
@[simp] theorem State.emit_inputs (s : State) (bs : List Byte) : (s.emit bs).inputs = s.inputs := rfl
@[simp] theorem State.emit_mem (s : State) (bs : List Byte) (B : Buf) : (s.emit bs).mem B = s.mem B := by cases B <;> rfl
@[simp] theorem State.emit_size (s : State) (bs : List Byte) (B : Buf) : (s.emit bs).size B = s.size B := by cases B <;> rfl
@[simp] theorem State.emit_memRead (s : State) (bs : List Byte) (B : Buf) (i n : Nat) :
    (s.emit bs).memRead B i n = s.memRead B i n := by cases B <;> rfl

/-! respond -/

@[simp] theorem State.respond_cfg (s : State) (r : Response) : (s.respond r).cfg = s.cfg := rfl
@[simp] theorem State.respond_rxSt (s : State) (r : Response) : (s.respond r).rxSt = s.rxSt := rfl
@[simp] theorem State.respond_rxWr (s : State) (r : Response) : (s.respond r).rxWr = s.rxWr := rfl
@[simp] theorem State.respond_acc (s : State) (r : Response) : (s.respond r).acc = s.acc := rfl
@[simp] theorem State.respond_rxd (s : State) (r : Response) : (s.respond r).rxd = s.rxd := rfl
@[simp] theorem State.respond_scr (s : State) (r : Response) : (s.respond r).scr = s.scr := rfl
@[simp] theorem State.respond_encb (s : State) (r : Response) : (s.respond r).encb = s.encb := rfl
@[simp] theorem State.respond_slice (s : State) (r : Response) : (s.respond r).slice = s.slice := rfl
@[simp] theorem State.respond_txOut (s : State) (r : Response) : (s.respond r).txOut = s.txOut := rfl
@[simp] theorem State.respond_resp (s : State) (r : Response) : (s.respond r).resp = some r := rfl
@[simp] theorem State.respond_inputs (s : State) (r : Response) : (s.respond r).inputs = s.inputs := rfl
@[simp] theorem State.respond_mem (s : State) (r : Response) (B : Buf) : (s.respond r).mem B = s.mem B := by cases B <;> rfl
@[simp] theorem State.respond_size (s : State) (r : Response) (B : Buf) : (s.respond r).size B = s.size B := by cases B <;> rfl
@[simp] theorem State.respond_memRead (s : State) (r : Response) (B : Buf) (i n : Nat) :
    (s.respond r).memRead B i n = s.memRead B i n := by cases B <;> rfl

/-! setInputs -/

@[simp] theorem State.setInputs_cfg (s : State) (l : List PortInput) : (s.setInputs l).cfg = s.cfg := rfl
@[simp] theorem State.setInputs_rxSt (s : State) (l : List PortInput) : (s.setInputs l).rxSt = s.rxSt := rfl
@[simp] theorem State.setInputs_rxWr (s : State) (l : List PortInput) : (s.setInputs l).rxWr = s.rxWr := rfl
@[simp] theorem State.setInputs_acc (s : State) (l : List PortInput) : (s.setInputs l).acc = s.acc := rfl
@[simp] theorem State.setInputs_rxd (s : State) (l : List PortInput) : (s.setInputs l).rxd = s.rxd := rfl
@[simp] theorem State.setInputs_scr (s : State) (l : List PortInput) : (s.setInputs l).scr = s.scr := rfl
@[simp] theorem State.setInputs_encb (s : State) (l : List PortInput) : (s.setInputs l).encb = s.encb := rfl
@[simp] theorem State.setInputs_slice (s : State) (l : List PortInput) : (s.setInputs l).slice = s.slice := rfl
@[simp] theorem State.setInputs_txOut (s : State) (l : List PortInput) : (s.setInputs l).txOut = s.txOut := rfl
@[simp] theorem State.setInputs_resp (s : State) (l : List PortInput) : (s.setInputs l).resp = s.resp := rfl
@[simp] theorem State.setInputs_inputs (s : State) (l : List PortInput) : (s.setInputs l).inputs = l := rfl
@[simp] theorem State.setInputs_mem (s : State) (l : List PortInput) (B : Buf) : (s.setInputs l).mem B = s.mem B := by cases B <;> rfl
@[simp] theorem State.setInputs_size (s : State) (l : List PortInput) (B : Buf) : (s.setInputs l).size B = s.size B := by cases B <;> rfl
@[simp] theorem State.setInputs_memRead (s : State) (l : List PortInput) (B : Buf) (i n : Nat) :
    (s.setInputs l).memRead B i n = s.memRead B i n := by cases B <;> rfl

/-! setMem -/

@[simp] theorem State.setMem_cfg (s : State) (m : Memory) (B : Buf) : (s.setMem m B).cfg = s.cfg := by cases B <;> rfl
@[simp] theorem State.setMem_rxSt (s : State) (m : Memory) (B : Buf) : (s.setMem m B).rxSt = s.rxSt := by cases B <;> rfl
@[simp] theorem State.setMem_rxWr (s : State) (m : Memory) (B : Buf) : (s.setMem m B).rxWr = s.rxWr := by cases B <;> rfl
@[simp] theorem State.setMem_acc_acc (s : State) (m : Memory) : (s.setMem m .acc).acc = m := rfl
@[simp] theorem State.setMem_rxd_acc (s : State) (m : Memory) : (s.setMem m .rxd).acc = s.acc := rfl
@[simp] theorem State.setMem_scr_acc (s : State) (m : Memory) : (s.setMem m .scr).acc = s.acc := rfl
@[simp] theorem State.setMem_encb_acc (s : State) (m : Memory) : (s.setMem m .encb).acc = s.acc := rfl
@[simp] theorem State.setMem_acc_rxd (s : State) (m : Memory) : (s.setMem m .acc).rxd = s.rxd := rfl
@[simp] theorem State.setMem_rxd_rxd (s : State) (m : Memory) : (s.setMem m .rxd).rxd = m := rfl
@[simp] theorem State.setMem_scr_rxd (s : State) (m : Memory) : (s.setMem m .scr).rxd = s.rxd := rfl
@[simp] theorem State.setMem_encb_rxd (s : State) (m : Memory) : (s.setMem m .encb).rxd = s.rxd := rfl
@[simp] theorem State.setMem_acc_scr (s : State) (m : Memory) : (s.setMem m .acc).scr = s.scr := rfl
@[simp] theorem State.setMem_rxd_scr (s : State) (m : Memory) : (s.setMem m .rxd).scr = s.scr := rfl
@[simp] theorem State.setMem_scr_scr (s : State) (m : Memory) : (s.setMem m .scr).scr = m := rfl
@[simp] theorem State.setMem_encb_scr (s : State) (m : Memory) : (s.setMem m .encb).scr = s.scr := rfl
@[simp] theorem State.setMem_acc_encb (s : State) (m : Memory) : (s.setMem m .acc).encb = s.encb := rfl
@[simp] theorem State.setMem_rxd_encb (s : State) (m : Memory) : (s.setMem m .rxd).encb = s.encb := rfl
@[simp] theorem State.setMem_scr_encb (s : State) (m : Memory) : (s.setMem m .scr).encb = s.encb := rfl
@[simp] theorem State.setMem_encb_encb (s : State) (m : Memory) : (s.setMem m .encb).encb = m := rfl
@[simp] theorem State.setMem_slice (s : State) (m : Memory) (B : Buf) : (s.setMem m B).slice = s.slice := by cases B <;> rfl
@[simp] theorem State.setMem_txOut (s : State) (m : Memory) (B : Buf) : (s.setMem m B).txOut = s.txOut := by cases B <;> rfl
@[simp] theorem State.setMem_resp (s : State) (m : Memory) (B : Buf) : (s.setMem m B).resp = s.resp := by cases B <;> rfl
@[simp] theorem State.setMem_inputs (s : State) (m : Memory) (B : Buf) : (s.setMem m B).inputs = s.inputs := by cases B <;> rfl
@[simp] theorem State.setMem_size (s : State) (m : Memory) (B C : Buf) : (s.setMem m B).size C = s.size C := by
  cases B <;> cases C <;> rfl
@[simp] theorem State.setMem_mem_self (s : State) (m : Memory) (B : Buf) : (s.setMem m B).mem B = m := by
  cases B <;> rfl
theorem State.setMem_mem_of_ne (s : State) (m : Memory) (B C : Buf) (h : C ≠ B) : (s.setMem m B).mem C = s.mem C := by
  cases B <;> cases C <;> first | rfl | exact absurd rfl h

/-! The state after reset and the reset input -/

@[simp] theorem State.resetWith_cfg (c : Config) : (State.resetWith c).cfg = c := rfl
@[simp] theorem State.resetWith_rxSt (c : Config) : (State.resetWith c).rxSt = .idle := rfl
@[simp] theorem State.resetWith_rxWr (c : Config) : (State.resetWith c).rxWr = 0 := rfl
@[simp] theorem State.resetWith_acc (c : Config) : (State.resetWith c).acc = [] := rfl
@[simp] theorem State.resetWith_rxd (c : Config) : (State.resetWith c).rxd = [] := rfl
@[simp] theorem State.resetWith_scr (c : Config) : (State.resetWith c).scr = [] := rfl
@[simp] theorem State.resetWith_encb (c : Config) : (State.resetWith c).encb = [] := rfl
@[simp] theorem State.resetWith_slice (c : Config) : (State.resetWith c).slice = none := rfl
@[simp] theorem State.resetWith_txOut (c : Config) : (State.resetWith c).txOut = [] := rfl
@[simp] theorem State.resetWith_resp (c : Config) : (State.resetWith c).resp = none := rfl
@[simp] theorem State.resetWith_inputs (c : Config) : (State.resetWith c).inputs = [] := rfl
@[simp] theorem State.resetWith_mem (c : Config) (B : Buf) : (State.resetWith c).mem B = [] := by cases B <;> rfl
@[simp] theorem hardwareReset_cfg (s : State) : (hardwareReset s).cfg = s.cfg := rfl
@[simp] theorem hardwareReset_rxSt (s : State) : (hardwareReset s).rxSt = .idle := rfl
@[simp] theorem hardwareReset_rxWr (s : State) : (hardwareReset s).rxWr = 0 := rfl
@[simp] theorem hardwareReset_acc (s : State) : (hardwareReset s).acc = [] := rfl
@[simp] theorem hardwareReset_rxd (s : State) : (hardwareReset s).rxd = [] := rfl
@[simp] theorem hardwareReset_scr (s : State) : (hardwareReset s).scr = [] := rfl
@[simp] theorem hardwareReset_encb (s : State) : (hardwareReset s).encb = [] := rfl
@[simp] theorem hardwareReset_slice (s : State) : (hardwareReset s).slice = none := rfl
@[simp] theorem hardwareReset_txOut (s : State) : (hardwareReset s).txOut = [] := rfl
@[simp] theorem hardwareReset_resp (s : State) : (hardwareReset s).resp = none := rfl
@[simp] theorem hardwareReset_inputs (s : State) : (hardwareReset s).inputs = s.inputs := rfl

end Sys2Proof.Machine
end

