-- ==== Sys2Proof/Laws/Memory.lean ====
section
/-! SUPPORT. Laws of the buffers: reading after writing, frames, the canonical form, and what memRead and memWrite can
do. -/

namespace Sys2Proof.Machine

/-! Single bytes. -/

@[simp] theorem Memory.get_nil (a : Nat) : Memory.get [] a = none := rfl

theorem Memory.get_set_self (m : Memory) (a : Nat) (b : Byte) : (m.set a b).get a = some b := by
  induction m with
  | nil => simp [Memory.set, Memory.get]
  | cons c m ih =>
    obtain ⟨k, v⟩ := c
    rcases Nat.lt_trichotomy a k with h | h | h
    · simp [Memory.set, Memory.get, h]
    · simp [Memory.set, Memory.get, h]
    · simp [Memory.set, Memory.get, show ¬ a < k by omega, show a ≠ k by omega, show k ≠ a by omega, ih]

theorem Memory.get_set_of_ne (m : Memory) {a c : Nat} (b : Byte) (h : c ≠ a) : (m.set a b).get c = m.get c := by
  induction m with
  | nil => simp [Memory.set, Memory.get, h.symm]
  | cons e m ih =>
    obtain ⟨k, v⟩ := e
    by_cases h1 : a < k
    · simp [Memory.set, Memory.get, h1, h.symm]
    · by_cases h2 : a = k
      · simp [Memory.set, Memory.get, ← h2, h.symm]
      · simp [Memory.set, Memory.get, h1, h2, ih]

/-! Many bytes. -/

theorem Memory.get_setMany_below (xs : List Byte) (m : Memory) {a c : Nat} (h : c < a) :
    (m.setMany a xs).get c = m.get c := by
  induction xs generalizing m a with
  | nil => rfl
  | cons b xs ih => rw [Memory.setMany, ih (m.set a b) (by omega), Memory.get_set_of_ne m b (by omega)]

theorem Memory.get_setMany_above (xs : List Byte) (m : Memory) {a c : Nat} (h : a + xs.length ≤ c) :
    (m.setMany a xs).get c = m.get c := by
  induction xs generalizing m a with
  | nil => rfl
  | cons b xs ih =>
    simp only [List.length_cons] at h
    rw [Memory.setMany, ih (m.set a b) (by omega), Memory.get_set_of_ne m b (by omega)]

theorem Memory.get_setMany_inside (xs : List Byte) (m : Memory) (a k : Nat) (h : k < xs.length) :
    (m.setMany a xs).get (a + k) = some xs[k] := by
  induction xs generalizing m a k with
  | nil => simp at h
  | cons b xs ih =>
    cases k with
    | zero => simp [Memory.setMany, Memory.get_setMany_below, Memory.get_set_self]
    | succ k =>
      have := ih (m.set a b) (a + 1) k (by simpa using h)
      simpa [Memory.setMany, Nat.add_right_comm, Nat.add_assoc, Nat.add_comm 1 k] using this

/-- getMany answers `xs` exactly when every byte of the range is written and is the byte of `xs`. -/
theorem Memory.getMany_eq_ok_iff (m : Memory) (n a : Nat) (xs : List Byte) :
    m.getMany a n = .ok xs ↔ xs.length = n ∧ ∀ k, (h : k < xs.length) → m.get (a + k) = some xs[k] := by
  induction n generalizing a xs with
  | zero =>
    constructor
    · intro h
      have : xs = [] := by simpa [Memory.getMany, eq_comm] using h
      subst this
      exact ⟨rfl, fun k h => absurd h (by simp)⟩
    · rintro ⟨h, -⟩
      rw [List.length_eq_zero_iff.mp h]
      rfl
  | succ n ih =>
    rw [Memory.getMany]
    cases hg : m.get a with
    | none =>
      constructor
      · intro h; simp [faulted] at h
      · rintro ⟨hl, hk⟩
        have := hk 0 (by omega)
        simp [hg] at this
    | some b =>
      cases xs with
      | nil =>
        constructor
        · intro h
          cases hr : m.getMany (a + 1) n <;> simp [hr, Except.map] at h
        · rintro ⟨hl, -⟩
          simp at hl
      | cons y ys =>
        have := ih (a + 1) ys
        constructor
        · intro h
          cases hr : m.getMany (a + 1) n with
          | error e => simp [hr, Except.map] at h
          | ok zs =>
            have hzs : b = y ∧ zs = ys := by simpa [hr, Except.map] using h
            obtain ⟨rfl, rfl⟩ := hzs
            obtain ⟨hl, hk⟩ := this.mp hr
            refine ⟨by simp [hl], fun k hlt => ?_⟩
            cases k with
            | zero => simpa using hg
            | succ k =>
              have := hk k (by simpa using hlt)
              simpa [Nat.add_assoc, Nat.add_comm 1 k] using this
        · rintro ⟨hl, hk⟩
          have h0 := hk 0 (by simp)
          simp only [Nat.add_zero, hg, List.getElem_cons_zero, Option.some.injEq] at h0
          have hr : m.getMany (a + 1) n = .ok ys := this.mpr ⟨by simpa using hl, fun k hlt => by
            have := hk (k + 1) (by simpa using hlt)
            simpa [Nat.add_assoc, Nat.add_comm 1 k] using this⟩
          simp [hr, Except.map, h0]

theorem Memory.getMany_congr (m m' : Memory) (a n : Nat) (h : ∀ k, k < n → m.get (a + k) = m'.get (a + k)) :
    m.getMany a n = m'.getMany a n := by
  induction n generalizing a with
  | zero => rfl
  | succ n ih =>
    have h0 := h 0 (by omega)
    simp only [Nat.add_zero] at h0
    rw [Memory.getMany, Memory.getMany, h0, ih (a + 1) (fun k hk => by
      have := h (k + 1) (by omega)
      simpa [Nat.add_assoc, Nat.add_comm 1 k] using this)]

theorem Memory.getMany_setMany (m : Memory) (a : Nat) (xs : List Byte) :
    (m.setMany a xs).getMany a xs.length = .ok xs :=
  (Memory.getMany_eq_ok_iff _ _ _ _).mpr ⟨rfl, fun k h => Memory.get_setMany_inside xs m a k h⟩

/-! The canonical form. -/

theorem Memory.wfFrom_mono (size : Nat) (m : Memory) {lo lo' : Nat} (h : lo' ≤ lo) (hm : m.wfFrom size lo = true) :
    m.wfFrom size lo' = true := by
  cases m with
  | nil => rfl
  | cons e m =>
    obtain ⟨k, v⟩ := e
    simp only [Memory.wfFrom, Bool.and_eq_true, decide_eq_true_eq] at hm ⊢
    exact ⟨⟨by omega, hm.1.2⟩, hm.2⟩

theorem Memory.wfFrom_set (size : Nat) (m : Memory) {lo a : Nat} (b : Byte) (hlo : lo ≤ a) (ha : a < size)
    (hm : m.wfFrom size lo = true) : (m.set a b).wfFrom size lo = true := by
  induction m generalizing lo with
  | nil => simp [Memory.set, Memory.wfFrom, hlo, ha]
  | cons e m ih =>
    obtain ⟨k, v⟩ := e
    simp only [Memory.wfFrom, Bool.and_eq_true, decide_eq_true_eq] at hm
    obtain ⟨⟨h1, h2⟩, h3⟩ := hm
    by_cases hk : a < k
    · simp only [Memory.set, hk, if_true, Memory.wfFrom, Bool.and_eq_true, decide_eq_true_eq]
      exact ⟨⟨hlo, ha⟩, ⟨by omega, h2⟩, h3⟩
    · by_cases he : a = k
      · subst he
        simp [Memory.set, Memory.wfFrom, hlo, ha, h3]
      · simp only [Memory.set, hk, he, if_false, Memory.wfFrom, Bool.and_eq_true, decide_eq_true_eq]
        exact ⟨⟨h1, h2⟩, ih (by omega) h3⟩

/-- Writing a byte inside the buffer keeps its canonical form. -/
theorem Memory.wf_set (size : Nat) (m : Memory) (a : Nat) (b : Byte) (ha : a < size) (hm : m.wf size = true) :
    (m.set a b).wf size = true := Memory.wfFrom_set size m b (Nat.zero_le a) ha hm

/-- Writing bytes inside the buffer keeps its canonical form. -/
theorem Memory.wf_setMany (size : Nat) (xs : List Byte) (m : Memory) (a : Nat) (ha : a + xs.length ≤ size)
    (hm : m.wf size = true) : (m.setMany a xs).wf size = true := by
  induction xs generalizing m a with
  | nil => exact hm
  | cons b xs ih =>
    simp only [List.length_cons] at ha
    exact ih (m.set a b) (a + 1) (by omega) (Memory.wf_set size m a b (by omega) hm)

theorem Memory.get_none_of_wfFrom (size : Nat) (m : Memory) {lo c : Nat} (hm : m.wfFrom size lo = true) (h : c < lo) :
    m.get c = none := by
  induction m generalizing lo with
  | nil => rfl
  | cons e m ih =>
    obtain ⟨k, v⟩ := e
    simp only [Memory.wfFrom, Bool.and_eq_true, decide_eq_true_eq] at hm
    rw [Memory.get, if_neg (by omega)]
    exact ih hm.2 (by omega)

/-- Equal contents are equal lists: two canonical buffers that read alike everywhere are the same data. -/
theorem Memory.ext_of_wfFrom (size : Nat) (m m' : Memory) {lo : Nat} (hm : m.wfFrom size lo = true)
    (hm' : m'.wfFrom size lo = true) (h : ∀ a, m.get a = m'.get a) : m = m' := by
  induction m generalizing m' lo with
  | nil =>
    cases m' with
    | nil => rfl
    | cons e m' =>
      obtain ⟨k, v⟩ := e
      have := h k
      simp [Memory.get] at this
  | cons e m ih =>
    obtain ⟨k, v⟩ := e
    simp only [Memory.wfFrom, Bool.and_eq_true, decide_eq_true_eq] at hm
    cases m' with
    | nil =>
      have := h k
      simp [Memory.get] at this
    | cons e' m' =>
      obtain ⟨k', v'⟩ := e'
      simp only [Memory.wfFrom, Bool.and_eq_true, decide_eq_true_eq] at hm'
      have hkk : k = k' := by
        rcases Nat.lt_trichotomy k k' with hlt | he | hlt
        · have := h k
          rw [Memory.get, if_pos rfl, Memory.get, if_neg (by omega),
            Memory.get_none_of_wfFrom size m' hm'.2 (by omega)] at this
          exact absurd this (by simp)
        · exact he
        · have := h k'
          rw [Memory.get, if_neg (by omega), Memory.get_none_of_wfFrom size m hm.2 (by omega), Memory.get,
            if_pos rfl] at this
          exact absurd this (by simp)
      subst hkk
      have hv : v = v' := by simpa [Memory.get] using h k
      subst hv
      rw [ih m' hm.2 hm'.2 (fun a => ?_)]
      by_cases ha : k = a
      · subst ha
        rw [Memory.get_none_of_wfFrom size m hm.2 (by omega), Memory.get_none_of_wfFrom size m' hm'.2 (by omega)]
      · have := h a
        simpa [Memory.get, ha] using this

/-! MemRead and MemWrite. -/

/-- All that memRead can do: bytes of the right number, each the one stored, inside the buffer; or it faults. -/
theorem State.memRead_eq_ok_iff (s : State) (B : Buf) (a n : Nat) (xs : List Byte) :
    s.memRead B a n = .ok xs ↔
      a + n ≤ s.size B ∧ xs.length = n ∧ ∀ k, (h : k < xs.length) → (s.mem B).get (a + k) = some xs[k] := by
  by_cases h : a + n ≤ s.size B
  · simp only [State.memRead, h, if_true, true_and]
    exact Memory.getMany_eq_ok_iff _ _ _ _
  · simp [State.memRead, h, faulted]

/-- All that memWrite can do: the bytes are written in that buffer alone, inside it; or it faults. -/
theorem State.memWrite_eq_ok_iff (s t : State) (B : Buf) (a n : Nat) (xs : List Byte) :
    s.memWrite B a n xs = .ok t ↔
      a + n ≤ s.size B ∧ xs.length = n ∧ t = s.setMem ((s.mem B).setMany a xs) B := by
  by_cases h : a + n ≤ s.size B ∧ xs.length = n
  · rw [State.memWrite, if_pos h, Except.ok.injEq]
    exact ⟨fun e => ⟨h.1, h.2, e.symm⟩, fun e => e.2.2.symm⟩
  · rw [State.memWrite, if_neg h]
    exact ⟨fun e => by simp [faulted] at e, fun e => absurd ⟨e.1, e.2.1⟩ h⟩

theorem State.memWrite_ok (s : State) (B : Buf) (a : Nat) (xs : List Byte) (h : a + xs.length ≤ s.size B) :
    s.memWrite B a xs.length xs = .ok (s.setMem ((s.mem B).setMany a xs) B) :=
  (State.memWrite_eq_ok_iff _ _ _ _ _ _).mpr ⟨h, rfl, rfl⟩

/-- MemRead of what MemWrite wrote. -/
theorem State.memRead_setMem_setMany (s : State) (B : Buf) (m : Memory) (a : Nat) (xs : List Byte)
    (h : a + xs.length ≤ s.size B) : (s.setMem (m.setMany a xs) B).memRead B a xs.length = .ok xs := by
  simp [State.memRead, h, Memory.getMany_setMany]

/-- MemRead of a part of what MemWrite wrote. -/
theorem State.memRead_part (s : State) (B : Buf) (m : Memory) (a i n : Nat) (xs : List Byte)
    (h : a + xs.length ≤ s.size B) (hi : i + n ≤ xs.length) :
    (s.setMem (m.setMany a xs) B).memRead B (a + i) n = .ok ((xs.drop i).take n) := by
  rw [State.memRead_eq_ok_iff]
  refine ⟨by simp; omega, by simp; omega, fun k hk => ?_⟩
  simp only [List.length_take, List.length_drop] at hk
  rw [State.setMem_mem_self, Nat.add_assoc, Memory.get_setMany_inside xs m a (i + k) (by omega)]
  simp

/-- MemWrite to one buffer leaves what is read from another. -/
theorem State.memRead_setMem_of_ne (s : State) (B C : Buf) (m : Memory) (a n : Nat) (h : C ≠ B) :
    (s.setMem m B).memRead C a n = s.memRead C a n := by
  simp [State.memRead, State.setMem_mem_of_ne s m B C h]

/-- Every memory operation keeps the canonical form of all four buffers. -/
theorem State.memWrite_keeps_wf (s t : State) (B : Buf) (a n : Nat) (xs : List Byte)
    (hs : ∀ C, (s.mem C).wf (s.size C) = true) (h : s.memWrite B a n xs = .ok t) (C : Buf) :
    (t.mem C).wf (t.size C) = true := by
  obtain ⟨h1, h2, rfl⟩ := (State.memWrite_eq_ok_iff _ _ _ _ _ _).mp h
  by_cases hC : C = B
  · subst hC
    simpa using Memory.wf_setMany _ xs _ a (by omega) (hs C)
  · simpa [State.setMem_mem_of_ne s _ B C hC] using hs C

/-- Forgetting a buffer keeps the canonical form of all four. -/
theorem State.forget_keeps_wf (s : State) (B : Buf) (hs : ∀ C, (s.mem C).wf (s.size C) = true) (C : Buf) :
    ((s.forget B).mem C).wf ((s.forget B).size C) = true := by
  by_cases hC : C = B
  · subst hC
    simp [State.forget, Memory.wf, Memory.wfFrom]
  · simpa [State.forget, State.setMem_mem_of_ne s _ B C hC] using hs C

/-- The buffers after reset are canonical. -/
theorem State.resetWith_wf (c : Config) (B : Buf) :
    ((State.resetWith c).mem B).wf ((State.resetWith c).size B) = true := by
  cases B <;> rfl

end Sys2Proof.Machine
end

