-- ==== Sys2Proof/Laws/Exec.lean ====
section
/-! SUPPORT. What the operations behind the commands can do, said once: answer, tx_send, rx_put, the receive pipeline,
accept and the step. -/

namespace Sys2Proof.Machine

/-! answer -/

@[simp] theorem answer_ok (s : State) (v : Option Value) : answer s (.ok v) = .next (s.respond (.success v)) := rfl
@[simp] theorem answer_err (s : State) (c : ErrCode) :
    answer s (.error (.err c)) = .next (s.respond (.failure c)) := rfl
@[simp] theorem answer_fault (s : State) (f : Fault) : answer s (.error (.fault f)) = .fault f := rfl
@[simp] theorem answer_raise (s : State) (c : ErrCode) : answer s (raise c) = .next (s.respond (.failure c)) := rfl

/-- A command that answers gives one response and changes nothing else. -/
theorem answer_next (s t : State) (r : Res (Option Value)) (h : answer s r = .next t) :
    ∃ q, Response.wf q = true ∧ q.accepted = true ∧ t = s.respond q := by
  match r, h with
  | .ok v, h => exact ⟨.success v, rfl, rfl, by simpa [eq_comm] using h⟩
  | .error (.err c), h => exact ⟨.failure c, by cases c <;> rfl, rfl, by simpa [eq_comm] using h⟩

/-! tx_send (R261) -/

/-- The state a successful TX_SEND leaves before its response: frame in SCR, escaped span in ENCB, bytes emitted. -/
def txSent (m : Msg) (s : State) : State :=
  let f := frameBody (msgId m) (regEncode m) ++ frameTrailer (frameCrc (msgId m) (regEncode m))
  let e := escBytes ([loByte (msgId m), hiByte (msgId m)] ++ regEncode m)
  ((s.setMem (s.scr.setMany 0 f) .scr).setMem (s.encb.setMany 0 e) .encb).emit (wire (msgId m) (regEncode m))

theorem txSend_unregistered (m : Msg) (s : State) (h : registered s.cfg.regTx (msgId m) = false) :
    txSend m s = .error (.err .unknownMsgId) := by
  simp [txSend, h, raise]

theorem txSend_registered (m : Msg) (s : State) (h : registered s.cfg.regTx (msgId m) = true) :
    txSend m s =
      if s.cfg.txCap < (regEncode m).length + 6 then .error (.err .notEnoughData)
      else if s.cfg.txEncCap < 2 * ((regEncode m).length + 2) then .error (.err .notEnoughData)
      else .ok (txSent m s) := by
  unfold txSend
  rw [if_neg (by simp [h])]
  by_cases h1 : s.cfg.txCap < (regEncode m).length + 6
  · simp [frmSerialize, h1, raise, Except.bind]
  simp only [frmSerialize, h1, if_false, Except.bind]
  generalize hb : frameBody (msgId m) (regEncode m) ++ frameTrailer (crc16 (frameBody (msgId m) (regEncode m))) = f
  have hf : f.length = (regEncode m).length + 6 := by subst hb; simp [frameBody, frameTrailer]
  have hw : s.memWrite .scr 0 ((regEncode m).length + 6) f = .ok (s.setMem (s.scr.setMany 0 f) .scr) := by
    rw [← hf]
    exact State.memWrite_ok s .scr 0 f (by simp only [State.size]; omega)
  have hpart (i n : Nat) (hi : i + n ≤ f.length) :
      (s.setMem (s.scr.setMany 0 f) .scr).memRead .scr i n = .ok ((f.drop i).take n) := by
    have := State.memRead_part s .scr s.scr 0 i n f (by simp only [State.size]; omega) hi
    rwa [Nat.zero_add] at this
  rw [hw]
  simp only [hpart 1 ((regEncode m).length + 2) (by omega)]
  have hspan : (f.drop 1).take ((regEncode m).length + 2) =
      [loByte (msgId m), hiByte (msgId m)] ++ regEncode m := by
    subst hb
    simp [frameBody, frameTrailer]
  have htrail : (f.drop ((regEncode m).length + 3)).take 3 = frameTrailer (frameCrc (msgId m) (regEncode m)) := by
    subst hb
    have : (frameBody (msgId m) (regEncode m)).length = (regEncode m).length + 3 := by simp [frameBody]
    rw [← this, List.drop_left]
    rfl
  rw [hspan]
  have hsl : ([loByte (msgId m), hiByte (msgId m)] ++ regEncode m).length = (regEncode m).length + 2 := by simp
  by_cases h2 : s.cfg.txEncCap < 2 * ((regEncode m).length + 2)
  · simp [escEncode, h2, raise]
  simp only [escEncode, State.setMem_cfg, hsl, h2, if_false]
  generalize he : escBytes ([loByte (msgId m), hiByte (msgId m)] ++ regEncode m) = e
  have hel : e.length ≤ s.cfg.txEncCap := by
    have := escBytes_length_le ([loByte (msgId m), hiByte (msgId m)] ++ regEncode m)
    rw [hsl, he] at this
    omega
  rw [State.memWrite_ok _ .encb 0 e (by simp only [State.size, State.setMem_cfg]; omega)]
  simp only
  rw [State.memRead_setMem_setMany _ .encb _ 0 e (by simp only [State.size, State.setMem_cfg]; omega)]
  simp only
  rw [State.memRead_setMem_of_ne _ .encb .scr _ _ _ (by decide), hpart _ 3 (by omega), htrail]
  simp only [Except.map, txSent, wire, he, ← hb, frameCrc]
  rfl

/-! rx_put (R281, R283) -/

theorem rxPut_overflow (b : Byte) (s : State) (h : s.rxSt = .overflow) : rxPut b s = .ok (s.setSlice none) := by
  simp [rxPut, h]

theorem rxPut_full (b : Byte) (s : State) (h : s.rxSt ≠ .overflow) (hw : s.rxWr = s.cfg.rxCap) :
    rxPut b s = .ok ((s.setSlice none).setRx .overflow s.rxWr) := by
  simp [rxPut, h, hw]

theorem rxPut_room (b : Byte) (s : State) (h : s.rxSt ≠ .overflow) (hw : s.rxWr < s.cfg.rxCap) :
    rxPut b s = .ok (((s.setSlice none).setMem (s.acc.set s.rxWr b) .acc).setRx (rxNext s.rxSt b) (s.rxWr + 1)) := by
  have := State.memWrite_ok (s.setSlice none) .acc s.rxWr [b] (by simp [State.size]; omega)
  simp only [List.length_cons, List.length_nil, Nat.zero_add] at this
  simp [rxPut, h, show ¬ s.rxWr = s.cfg.rxCap by omega, this, Except.map, State.mem, Memory.setMany]

/-! rx_pipeline (R293) -/

/-- The pipeline without its buffer traffic: the stages in order, the first error ending them (R295); it writes and
reads RXD inside its bounds, so it never faults. -/
theorem rxPipeline_eq (stream : List Byte) (s : State) :
    rxPipeline stream s =
      (frmExtract stream).bind fun r => (escDecode r.2.2 s.cfg.rxCap).bind fun p =>
      (frmDeserialize p).bind fun fr => (regDecode fr.msgId fr.payload.bytes s.cfg.regRx).map fun m =>
      (s.setMem (s.rxd.setMany 0 p) .rxd, m, borrowOf m p.length) := by
  unfold rxPipeline
  cases h1 : frmExtract stream with
  | error e => rfl
  | ok r =>
    obtain ⟨o, l, f⟩ := r
    simp only [Except.bind]
    cases h2 : escDecode f s.cfg.rxCap with
    | error e => rfl
    | ok p =>
      have hp : p.length ≤ s.cfg.rxCap := by
        unfold escDecode at h2
        split at h2
        · simp [raise] at h2
        · have := unescBytes_length_le false f
          simp only [Except.ok.injEq] at h2
          subst h2
          omega
      simp only
      rw [State.memWrite_ok s .rxd 0 p (by simp only [State.size]; omega)]
      simp only
      rw [State.memRead_setMem_setMany s .rxd _ 0 p (by simp only [State.size]; omega)]
      simp only [State.setMem_cfg]
      rfl

/-- All that the pipeline can do: report the code of a stage (INCOMPLETE only where the scan finds no frame), or return a
message with the decoded frame in RXD. -/
theorem rxPipeline_cases (stream : List Byte) (s : State) :
    (∃ c, c ∉ [ErrCode.noError, .outOfMemory, .messageNotReady] ∧ (c = .incomplete → frmScan 0 none stream = none) ∧ rxPipeline stream s = .error (.err c)) ∨
    ∃ p fr m, frmDeserialize p = .ok fr ∧ regDecode fr.msgId fr.payload.bytes s.cfg.regRx = .ok m ∧
      p.length ≤ s.cfg.rxCap ∧
      rxPipeline stream s = .ok (s.setMem (s.rxd.setMany 0 p) .rxd, m, borrowOf m p.length) := by
  rw [rxPipeline_eq]
  rcases frmExtract_cases stream with ⟨h0, h⟩ | ⟨o, l, -, -, h⟩
  · exact .inl ⟨.incomplete, by decide, fun _ => h0, by rw [h]; rfl⟩
  rw [h]
  simp only [Except.bind]
  generalize (stream.take (o + l)).drop o = f
  by_cases h2 : s.cfg.rxCap < f.length
  · exact .inl ⟨.notEnoughData, by decide, nofun, by simp [escDecode, h2, raise]⟩
  have hp := unescBytes_length_le false f
  simp only [escDecode, h2, if_false]
  generalize unescBytes false f = p at hp
  rcases frmDeserialize_cases p with h4 | h4 | h4 | ⟨fr, h4, -⟩
  · exact .inl ⟨.notEnoughData, by decide, nofun, by rw [h4]⟩
  · exact .inl ⟨.invalidMagic, by decide, nofun, by rw [h4]⟩
  · exact .inl ⟨.invalidCrc, by decide, nofun, by rw [h4]⟩
  · rw [h4]
    rcases regDecode_cases fr.msgId fr.payload.bytes s.cfg.regRx with h5 | h5 | ⟨m, h5, -⟩
    · exact .inl ⟨.unknownMsgId, by decide, nofun, by simp only [h5]; rfl⟩
    · exact .inl ⟨.incorrectAlignment, by decide, nofun, by simp only [h5]; rfl⟩
    · exact .inr ⟨p, fr, m, h4, h5, by omega, by simp only [h5]; rfl⟩

/-! The arms of exec -/

theorem exec_escEncode (p : Plain) (cap : Nat) (s : State) : exec (.escEncode p cap) s =
    if cap < 2 * p.bytes.length then .next (s.respond (.failure .notEnoughData))
    else .next (s.respond (.success (some (.encoded ⟨escBytes p.bytes⟩)))) := by
  show answer s ((escEncode p.bytes cap).map _) = _
  unfold escEncode
  split <;> rfl

theorem exec_escDecode (e : Encoded) (cap : Nat) (s : State) : exec (.escDecode e cap) s =
    if cap < e.bytes.length then .next (s.respond (.failure .notEnoughData))
    else .next (s.respond (.success (some (.plain ⟨unescBytes false e.bytes⟩)))) := by
  show answer s ((escDecode e.bytes cap).map _) = _
  unfold escDecode
  split <;> rfl

theorem exec_frmSerialize (id : U16) (p : Plain) (cap : Nat) (s : State) : exec (.frmSerialize id p cap) s =
    if cap < p.bytes.length + 6 then .next (s.respond (.failure .notEnoughData))
    else .next (s.respond (.success (some (.plain ⟨frameBody id p.bytes ++ frameTrailer (frameCrc id p.bytes)⟩)))) := by
  show answer s ((frmSerialize id p.bytes cap).map _) = _
  unfold frmSerialize
  split <;> rfl

theorem exec_frmDeserialize (d : Plain) (s : State) : exec (.frmDeserialize d) s =
    answer s ((frmDeserialize d.bytes).map fun f => some (.frame f)) := rfl

theorem exec_frmExtract (x : Encoded) (s : State) : exec (.frmExtract x) s =
    answer s ((frmExtract x.bytes).map fun (o, l, bytes) => some (.view o l ⟨bytes⟩)) := rfl

theorem exec_regDecodePayload (id : U16) (b : Plain) (s : State) : exec (.regDecodePayload id b) s =
    answer s ((regDecode id b.bytes s.cfg.regRx).map fun m => some (.msg m none)) := rfl

/-- TX_SEND: the three outcomes in the order of R266. -/
theorem exec_txSend (m : Msg) (s : State) : exec (.txSend m) s =
    if registered s.cfg.regTx (msgId m) = false then .next ((txFailed s).respond (.failure .unknownMsgId))
    else if s.cfg.txCap < (regEncode m).length + 6 ∨ s.cfg.txEncCap < 2 * ((regEncode m).length + 2) then
      .next ((txFailed s).respond (.failure .notEnoughData))
    else .next ((txSent m s).respond (.success none)) := by
  show execTxSend m s = _
  unfold execTxSend
  cases h : registered s.cfg.regTx (msgId m) with
  | false => rw [txSend_unregistered m s h]; rfl
  | true =>
    rw [txSend_registered m s h]
    by_cases h1 : s.cfg.txCap < (regEncode m).length + 6
    · simp [h1]
    · by_cases h2 : s.cfg.txEncCap < 2 * ((regEncode m).length + 2)
      · simp [h1, h2]
      · simp [h1, h2]

/-- RX_PUT in a state with rx_wr ≤ RX_CAP: the cases of R282. -/
theorem exec_rxPut (b : Byte) (s : State) (h : s.rxWr ≤ s.cfg.rxCap) : exec (.rxPut b) s =
    if s.rxSt = .overflow then .next ((s.setSlice none).respond (.success none))
    else if s.rxWr = s.cfg.rxCap then
      .next (((s.setSlice none).setRx .overflow s.rxWr).respond (.success none))
    else .next ((((s.setSlice none).setMem (s.acc.set s.rxWr b) .acc).setRx (rxNext s.rxSt b) (s.rxWr + 1)).respond
      (.success none)) := by
  show execRxPut b s = _
  unfold execRxPut
  by_cases h1 : s.rxSt = .overflow
  · rw [rxPut_overflow b s h1, if_pos h1]; rfl
  · by_cases h2 : s.rxWr = s.cfg.rxCap
    · rw [rxPut_full b s h1 h2, if_neg h1, if_pos h2]; rfl
    · rw [rxPut_room b s h1 (by omega), if_neg h1, if_neg h2]; rfl

/-- All that RX_PUT can do, in any state: one of the cases of R282, or a fault where rx_wr is beyond RX_CAP. -/
theorem exec_rxPut_cases (b : Byte) (s : State) :
    s.rxWr ≤ s.cfg.rxCap ∨ s.rxSt = .overflow ∨ exec (.rxPut b) s = .fault .outOfRange := by
  by_cases h : s.rxWr ≤ s.cfg.rxCap
  · exact .inl h
  by_cases h1 : s.rxSt = .overflow
  · exact .inr (.inl h1)
  refine .inr (.inr ?_)
  show execRxPut b s = _
  simp [execRxPut, rxPut, h1, show ¬ s.rxWr = s.cfg.rxCap by omega, State.memWrite, State.size, faulted, Except.map,
    show ¬ s.rxWr + 1 ≤ s.cfg.rxCap by omega]

/-- RX_COLLECT (R291). -/
theorem exec_rxCollect (s : State) : exec .rxCollect s =
    match s.rxSt with
    | .overflow => .next (((s.setSlice none).setRx .idle 0).respond (.failure .outOfMemory))
    | .idle => .next ((s.setSlice none).respond (.failure .messageNotReady))
    | .frameOpen => .next ((s.setSlice none).respond (.failure .messageNotReady))
    | .frameReady => rxCollectReady (s.setSlice none) := by
  show execRxCollect s = _
  unfold execRxCollect
  simp only [State.setSlice_rxSt]
  cases s.rxSt <;> rfl

/-- The ready branch with the bytes of ACC read: a code, or a message with the decoded frame in RXD. -/
theorem rxCollectReady_cases (s : State) (stream : List Byte) (h : s.memRead .acc 0 s.rxWr = .ok stream) :
    (∃ c, c ∉ [ErrCode.noError, .outOfMemory, .messageNotReady] ∧ (c = .incomplete → frmScan 0 none stream = none) ∧
      rxPipeline stream (s.setRx .idle 0) = .error (.err c) ∧
      rxCollectReady s = .next (((s.setRx .idle 0).forget .rxd).respond (.failure c))) ∨
    ∃ p fr m, frmDeserialize p = .ok fr ∧ regDecode fr.msgId fr.payload.bytes s.cfg.regRx = .ok m ∧
      p.length ≤ s.cfg.rxCap ∧
      rxCollectReady s = .next ((((s.setRx .idle 0).setMem (s.rxd.setMany 0 p) .rxd).setSlice
        (borrowOf m p.length)).respond (.success (some (.msg m (borrowOf m p.length))))) := by
  rcases rxPipeline_cases stream (s.setRx .idle 0) with ⟨c, hc, hi, e⟩ | ⟨p, fr, m, h1, h2, h3, e⟩
  · exact .inl ⟨c, hc, hi, e, by simp [rxCollectReady, h, e]⟩
  · exact .inr ⟨p, fr, m, h1, h2, h3, by simp [rxCollectReady, h, e]⟩

theorem exec_rxReset (s : State) :
    exec .rxReset s = .next (((s.setSlice none).setRx .idle 0).respond (.success none)) := rfl

theorem exec_rxReady (s : State) : exec .rxReady s = .next (s.respond (.success (some (.bit s.ready)))) := rfl

/-! accept and step -/

theorem accept_ok_iff (cfg : Config) (c : Command) (i : Instr) :
    accept cfg c = .ok i ↔ decode c = .ok i ∧ i.wellFormed cfg.opndMax = true := by
  unfold accept
  cases h : decode c with
  | error r => simp
  | ok j =>
    by_cases hw : j.wellFormed cfg.opndMax = true
    · simp only [hw, if_true, Except.ok.injEq]
      exact ⟨fun e => e ▸ ⟨rfl, hw⟩, fun e => e.1⟩
    · simp only [hw, if_false, reduceCtorEq, false_iff, Except.ok.injEq]
      rintro ⟨rfl, hw'⟩
      exact hw hw'

/-- All that a step can do (R3, R97): nothing to take, a reset, a refused command, or a command's meaning. -/
theorem step_cases (s : State) :
    (s.inputs = [] ∧ step s = .next s) ∨
    (∃ rest, s.inputs = .reset :: rest ∧ step s = .next (hardwareReset (s.setInputs rest))) ∨
    (∃ c rest r, s.inputs = .command c :: rest ∧ accept s.cfg c = .error r ∧ step s = .refused (.rejected r)) ∨
    ∃ c rest i, s.inputs = .command c :: rest ∧ accept s.cfg c = .ok i ∧ step s = exec i (s.setInputs rest) := by
  unfold step
  split
  · exact .inl ⟨‹_›, rfl⟩
  · exact .inr (.inl ⟨_, ‹_›, rfl⟩)
  · rename_i c rest h
    split
    · exact .inr (.inr (.inl ⟨c, rest, _, h, ‹_›, rfl⟩))
    · exact .inr (.inr (.inr ⟨c, rest, _, h, ‹_›, rfl⟩))

end Sys2Proof.Machine
end

