-- ==== Sys2Proof/Laws/PerInstr.lean ====
section
/-! SUPPORT. Statements made per instruction. TableRow: the word of every command matches exactly one row of the table of
R92, the row of its mnemonic. -/

namespace Sys2Proof.Laws.TableRow

/-- The position of a command's row in the table (R92). -/
def rowOf : Instr → Nat
  | .crc16 _ => 0
  | .escEncode _ _ => 1
  | .escDecode _ _ => 2
  | .frmSerialize _ _ _ => 3
  | .frmDeserialize _ => 4
  | .frmExtract _ => 5
  | .regDecodePayload _ _ => 6
  | .regEncodePayload _ => 7
  | .txSend _ => 8
  | .rxPut _ => 9
  | .rxReady => 10
  | .rxCollect => 11
  | .rxReset => 12

/-- The command's word matches the row at its position and no other (R92, R93). -/
def Statement (i : Instr) : Prop :=
  ∀ k, k < 13 → (((commandTable[k]?).any fun row => row.accepts (encodeWord i)) = true ↔ k = rowOf i)

theorem crc16 (data : ByteSeq) : Statement (.crc16 data) := by
  show ∀ k, k < 13 → (((commandTable[k]?).any fun row => row.accepts 0x1000) = true ↔ k = 0)
  decide

theorem escEncode (plain : Plain) (cap : Nat) : Statement (.escEncode plain cap) := by
  show ∀ k, k < 13 → (((commandTable[k]?).any fun row => row.accepts 0x2000) = true ↔ k = 1)
  decide

theorem escDecode (enc : Encoded) (cap : Nat) : Statement (.escDecode enc cap) := by
  show ∀ k, k < 13 → (((commandTable[k]?).any fun row => row.accepts 0x3000) = true ↔ k = 2)
  decide

theorem frmSerialize (id : U16) (payload : Plain) (cap : Nat) : Statement (.frmSerialize id payload cap) := by
  show ∀ k, k < 13 → (((commandTable[k]?).any fun row => row.accepts 0x4000) = true ↔ k = 3)
  decide

theorem frmDeserialize (data : Plain) : Statement (.frmDeserialize data) := by
  show ∀ k, k < 13 → (((commandTable[k]?).any fun row => row.accepts 0x5000) = true ↔ k = 4)
  decide

theorem frmExtract (stream : Encoded) : Statement (.frmExtract stream) := by
  show ∀ k, k < 13 → (((commandTable[k]?).any fun row => row.accepts 0x6000) = true ↔ k = 5)
  decide

theorem regDecodePayload (id : U16) (bytes : Plain) : Statement (.regDecodePayload id bytes) := by
  show ∀ k, k < 13 → (((commandTable[k]?).any fun row => row.accepts 0x7000) = true ↔ k = 6)
  decide

theorem regEncodePayload (m : Msg) : Statement (.regEncodePayload m) := by
  show ∀ k, k < 13 → (((commandTable[k]?).any fun row => row.accepts 0x8000) = true ↔ k = 7)
  decide

theorem txSend (m : Msg) : Statement (.txSend m) := by
  show ∀ k, k < 13 → (((commandTable[k]?).any fun row => row.accepts 0x9000) = true ↔ k = 8)
  decide

/-- What the two masks of the table leave of RX_PUT's word. -/
theorem rxPut_masked (b : Byte) :
    encodeWord (.rxPut b) &&& 0xFF00 = 0xA000 ∧ (encodeWord (.rxPut b) &&& 0xFFFF).extractLsb' 12 4 = (0xA : BitVec 4) := by
  refine ⟨?_, ?_⟩
  · apply BitVec.eq_of_getLsbD_eq
    intro i hi
    by_cases h8 : i < 8
    · have : i = 0 ∨ i = 1 ∨ i = 2 ∨ i = 3 ∨ i = 4 ∨ i = 5 ∨ i = 6 ∨ i = 7 := by omega
      rcases this with rfl | rfl | rfl | rfl | rfl | rfl | rfl | rfl <;> simp [encodeWord]
    · have : i = 8 ∨ i = 9 ∨ i = 10 ∨ i = 11 ∨ i = 12 ∨ i = 13 ∨ i = 14 ∨ i = 15 := by omega
      rcases this with rfl | rfl | rfl | rfl | rfl | rfl | rfl | rfl <;> simp [encodeWord]
  · apply BitVec.eq_of_getLsbD_eq
    intro i hi
    have : i = 0 ∨ i = 1 ∨ i = 2 ∨ i = 3 := by omega
    rcases this with rfl | rfl | rfl | rfl <;> simp [encodeWord]

theorem rxPut (b : Byte) : Statement (.rxPut b) := by
  obtain ⟨h1, h2⟩ := rxPut_masked b
  intro k hk
  have hne (p : Word) (hp : p.extractLsb' 12 4 ≠ (0xA : BitVec 4)) : ¬ encodeWord (.rxPut b) &&& 0xFFFF = p := by
    rintro rfl
    exact hp h2
  have : k = 0 ∨ k = 1 ∨ k = 2 ∨ k = 3 ∨ k = 4 ∨ k = 5 ∨ k = 6 ∨ k = 7 ∨ k = 8 ∨ k = 9 ∨ k = 10 ∨ k = 11 ∨ k = 12 := by
    omega
  rcases this with rfl | rfl | rfl | rfl | rfl | rfl | rfl | rfl | rfl | rfl | rfl | rfl | rfl
  case inr.inr.inr.inr.inr.inr.inr.inr.inr.inl =>
    exact iff_of_true (by simpa only [commandTable, Row.accepts, List.getElem?_cons_zero, List.getElem?_cons_succ,
      Option.any_some, beq_iff_eq] using h1) rfl
  all_goals
    simp only [commandTable, Row.accepts, List.getElem?_cons_zero, List.getElem?_cons_succ, Option.any_some, beq_iff_eq]
    exact iff_of_false (hne _ (by decide)) (by simp [rowOf])

theorem rxReady : Statement .rxReady := by
  show ∀ k, k < 13 → (((commandTable[k]?).any fun row => row.accepts 0xB000) = true ↔ k = 10)
  decide

theorem rxCollect : Statement .rxCollect := by
  show ∀ k, k < 13 → (((commandTable[k]?).any fun row => row.accepts 0xC000) = true ↔ k = 11)
  decide

theorem rxReset : Statement .rxReset := by
  show ∀ k, k < 13 → (((commandTable[k]?).any fun row => row.accepts 0xD000) = true ↔ k = 12)
  decide

end Sys2Proof.Laws.TableRow
end

