-- ==== Sys2Proof/Laws/Receive.lean ====
section
/-! SUPPORT. Sequences of commands, and bytes put into a receiver that has room for them. -/

namespace Sys2Proof.Machine

theorem execSeq_append (is js : List Instr) (s t : State) (h : execSeq is s = .next t) :
    execSeq (is ++ js) s = execSeq js t := by
  induction is generalizing s with
  | nil =>
    simp only [execSeq, Host.Outcome.next.injEq] at h
    subst h
    rfl
  | cons i is ih =>
    simp only [execSeq, List.cons_append] at h ⊢
    cases hx : exec i s with
    | next u => rw [hx] at h; exact ih u h
    | fault f => rw [hx] at h; cases h
    | refused r => rw [hx] at h; cases h

/-- A byte never leads to OVERFLOW by itself; only a full buffer does (R283). -/
theorem rxNext_ne_overflow (st : RxState) (b : Byte) (h : st ≠ .overflow) : rxNext st b ≠ .overflow := by
  cases st
  · simp only [rxNext]; split <;> decide
  · simp only [rxNext]; split <;> decide
  · simp [rxNext]
  · exact absurd rfl h

/-- Bytes for which ACC has room are appended to the stored ones, rx_st runs through rxNext, and nothing is emitted
(R281). -/
theorem execSeq_putAll (xs stored : List Byte) (s : State) (hst : s.rxSt ≠ .overflow)
    (hs : s.memRead .acc 0 s.rxWr = .ok stored) (hroom : s.rxWr + xs.length ≤ s.cfg.rxCap) :
    ∃ t, execSeq (putAll xs) s = .next t ∧ t.rxWr = s.rxWr + xs.length ∧
      t.memRead .acc 0 t.rxWr = .ok (stored ++ xs) ∧ t.rxSt = xs.foldl rxNext s.rxSt ∧ t.cfg = s.cfg ∧
      t.txOut = s.txOut := by
  induction xs generalizing s stored with
  | nil => exact ⟨s, rfl, rfl, by simpa using hs, rfl, rfl, rfl⟩
  | cons b xs ih =>
    simp only [List.length_cons] at hroom
    simp only [putAll, List.map_cons, execSeq]
    rw [exec_rxPut b s (by omega), if_neg hst, if_neg (by omega)]
    have hread : (((s.setSlice none).setMem (s.acc.set s.rxWr b) .acc).setRx (rxNext s.rxSt b) (s.rxWr + 1)).memRead
        .acc 0 (s.rxWr + 1) = .ok (stored ++ [b]) := by
      rw [State.memRead_eq_ok_iff] at hs ⊢
      obtain ⟨-, h2, h3⟩ := hs
      refine ⟨by simp only [State.size, State.setRx_cfg, State.setMem_cfg, State.setSlice_cfg]; omega, by simp [h2], ?_⟩
      intro k hk
      simp only [List.length_append, List.length_singleton] at hk
      simp only [State.setRx_mem, State.setMem_mem_self, Nat.zero_add] at h3 ⊢
      by_cases hk' : k = s.rxWr
      · subst hk'
        rw [Memory.get_set_self]
        simp [h2]
      · rw [Memory.get_set_of_ne _ _ hk', List.getElem_append_left (by omega)]
        exact h3 k (by omega)
    obtain ⟨t, h1, h2, h3, h4, h5, h6⟩ := ih (stored ++ [b])
      ((((s.setSlice none).setMem (s.acc.set s.rxWr b) .acc).setRx (rxNext s.rxSt b) (s.rxWr + 1)).respond
        (.success none)) (rxNext_ne_overflow _ _ hst) hread
      (by simp only [State.respond_rxWr, State.setRx_rxWr, State.respond_cfg, State.setRx_cfg, State.setMem_cfg,
            State.setSlice_cfg]; omega)
    refine ⟨t, h1, ?_, ?_, h4, h5, h6⟩
    · simp only [State.respond_rxWr, State.setRx_rxWr] at h2
      rw [h2, List.length_cons]
      omega
    · rw [h3, List.append_assoc, List.singleton_append]

/-- FRAME_READY absorbs (R281). -/
theorem foldl_rxNext_ready (xs : List Byte) : xs.foldl rxNext .frameReady = .frameReady := by
  induction xs with
  | nil => rfl
  | cons b xs ih => exact ih

/-- Bytes with an END after a START make a fresh receiver ready (R281). -/
theorem foldl_rxNext_frame (pre mid post : List Byte) :
    (pre ++ startByte :: (mid ++ endByte :: post)).foldl rxNext .idle = .frameReady := by
  have step (b : Byte) (xs : List Byte) (st : RxState) : (b :: xs).foldl rxNext st = xs.foldl rxNext (rxNext st b) := rfl
  have openEnd (mid : List Byte) : (mid ++ endByte :: post).foldl rxNext .frameOpen = .frameReady := by
    induction mid with
    | nil => exact foldl_rxNext_ready post
    | cons b mid ih =>
      rw [List.cons_append, step]
      by_cases hb : b = endByte
      · simp only [rxNext, hb, if_true]
        exact foldl_rxNext_ready _
      · simp only [rxNext, hb, if_false]
        exact ih
  have openStart (pre : List Byte) :
      (pre ++ startByte :: (mid ++ endByte :: post)).foldl rxNext .frameOpen = .frameReady := by
    have := openEnd (pre ++ startByte :: mid)
    rwa [List.append_assoc, List.cons_append] at this
  induction pre with
  | nil =>
    rw [List.nil_append, step]
    simp only [rxNext, if_true]
    exact openEnd mid
  | cons b pre ih =>
    rw [List.cons_append, step]
    by_cases hb : b = startByte
    · simp only [rxNext, hb, if_true]
      exact openStart pre
    · simp only [rxNext, hb, if_false]
      exact ih

end Sys2Proof.Machine
end

