-- ==== Sys2Proof/Machine/Assembly.lean ====
section
/-! DEFINITION. The written form of commands (R98) and the pseudo-command RX_PUTS (R99): a line of text to the commands
it stands for. What R98 does not say (spaces, letter case, numbers) is a DESIGN CHOICE, log 16. -/

namespace Sys2Proof.Machine

/-- A token of a command line. -/
inductive Token where
  | word (w : String)
  | num (n : Nat)
  | mark (c : Char)
  deriving DecidableEq, Repr

/-- The value of a digit character. -/
def digitValue (c : Char) : Option Nat :=
  let n := c.toNat
  if 48 ≤ n ∧ n ≤ 57 then some (n - 48)
  else if 65 ≤ n ∧ n ≤ 70 then some (n - 55)
  else if 97 ≤ n ∧ n ≤ 102 then some (n - 87)
  else none

/-- A digit string in a base, continuing from `acc`. -/
def parseDigits (base : Nat) : Nat → List Char → Option Nat
  | acc, [] => some acc
  | acc, c :: cs =>
    match digitValue c with
    | none => none
    | some d => if d < base then parseDigits base (acc * base + d) cs else none

/-- A run of letters, digits and underscores as a token: `0x` and digits is hexadecimal, digits are decimal, anything
else a word. -/
def classify (cs : List Char) : Token :=
  match cs with
  | '0' :: 'x' :: d :: ds =>
    match parseDigits 16 0 (d :: ds) with
    | some n => .num n
    | none => .word (String.ofList cs)
  | _ =>
    match parseDigits 10 0 cs with
    | some n => .num n
    | none => .word (String.ofList cs)

/-- The token of the run read so far (kept in reverse), if any. -/
def flushRun : List Char → List Token
  | [] => []
  | cs => [classify cs.reverse]

/-- Letters, digits and the underscore. -/
def isWordChar (c : Char) : Bool := c.isAlphanum || c == '_'

/-- The tokens of a line; `;` begins a comment (R98). -/
def tokensFrom : List Char → List Char → List Token
  | run, [] => flushRun run
  | run, c :: cs =>
    if isWordChar c then tokensFrom (c :: run) cs
    else if c = ';' then flushRun run
    else if c = ' ' ∨ c = '\t' then flushRun run ++ tokensFrom [] cs
    else flushRun run ++ (.mark c :: tokensFrom [] cs)

/-- The opening brace of a message. -/
def braceOpen : Char := Char.ofNat 123

/-- The closing brace of a message. -/
def braceClose : Char := Char.ofNat 125

/-- A number as a value of `w` bits, none where it does not fit. -/
def fits (w n : Nat) : Option (BitVec w) := if n < 2 ^ w then some (BitVec.ofNat w n) else none

/-- The rest of a byte list after its first byte: `, b` up to `]`. -/
def listTail : List Token → Option (List Byte × List Token)
  | .mark ']' :: r => some ([], r)
  | .mark ',' :: .num n :: r =>
    match fits 8 n, listTail r with
    | some b, some (bs, r') => some (b :: bs, r')
    | _, _ => none
  | _ => none

/-- A byte list `[b, ...]`, from after its opening bracket. -/
def listBody : List Token → Option (List Byte × List Token)
  | .mark ']' :: r => some ([], r)
  | .num n :: r =>
    match fits 8 n, listTail r with
    | some b, some (bs, r') => some (b :: bs, r')
    | _, _ => none
  | _ => none

/-- A byte sequence operand: `enc[...]` is Encoded, a bare `[...]` takes the kind the command fixes (R98). -/
def seqOperand (bare : List Byte → ByteSeq) : List Token → Option (ByteSeq × List Token)
  | .mark '[' :: r => (listBody r).map fun (bs, r') => (bare bs, r')
  | .word "enc" :: .mark '[' :: r => (listBody r).map fun (bs, r') => (.encoded ⟨bs⟩, r')
  | _ => none

/-- A bare list as Plain. -/
def asPlain (bs : List Byte) : ByteSeq := .plain ⟨bs⟩

/-- A bare list as Encoded. -/
def asEncoded (bs : List Byte) : ByteSeq := .encoded ⟨bs⟩

/-- A message operand between its braces (R98). -/
def msgFields (name : String) (inner : List Token) : Option Msg :=
  match name, inner with
  | "Heartbeat", [.word "seq", .mark '=', .num v] => (fits 8 v).map .heartbeat
  | "Ack", [.word "msg_id", .mark '=', .num i, .mark ',', .word "error", .mark '=', .num e] =>
    (fits 16 i).bind fun i => (fits 8 e).map fun e => .ack i e
  | "SetFrequency", [.word "min_freq", .mark '=', .num f, .mark ',', .word "step_freq", .mark '=', .num p] =>
    (fits 32 f).bind fun f => (fits 32 p).map fun p => .setFrequency f p
  | "StartStreaming", [.word "count", .mark '=', .num c] => (fits 32 c).map .startStreaming
  | "SpectrumData", .mark '[' :: r =>
    match listBody r with
    | some (bs, []) => some (.spectrumData bs)
    | _ => none
  | _, _ => none

/-- A message operand that ends the line (R98). -/
def msgOperand : List Token → Option Msg
  | .word name :: .mark o :: r =>
    if o = braceOpen ∧ r.getLast? = some (.mark braceClose) then msgFields name r.dropLast else none
  | _ => none

/-- A sequence operand that ends the line. -/
def seqOnly (bare : List Byte → ByteSeq) (r : List Token) : Option OperandRecord :=
  match seqOperand bare r with
  | some (x, []) => some { OperandRecord.empty with seq := some x }
  | _ => none

/-- A sequence operand and a capacity. -/
def seqAndCap (bare : List Byte → ByteSeq) (r : List Token) : Option OperandRecord :=
  match seqOperand bare r with
  | some (x, [.mark ',', .num k]) => some { OperandRecord.empty with seq := some x, cap := some k }
  | _ => none

/-- An id, a comma and what follows. -/
def idThen (k : List Token → Option OperandRecord) : List Token → Option OperandRecord
  | .num n :: .mark ',' :: r =>
    (fits 16 n).bind fun i => (k r).map fun rec => { rec with id := some i }
  | _ => none

/-- A message operand. -/
def msgOnly (r : List Token) : Option OperandRecord :=
  (msgOperand r).map fun m => { OperandRecord.empty with msg := some m }

/-- A command word with the operands read. -/
def withWord (w : Word) (r : Option OperandRecord) : Option (List Command) :=
  r.map fun opnds => [{ word := w, opnds := opnds }]

/-- A line of tokens: no command on an empty line, one command, or the expansion of RX_PUTS (R98, R99). -/
def assembleTokens : List Token → Option (List Command)
  | [] => some []
  | .word "CRC16" :: r => withWord 0x1000 (seqOnly asPlain r)
  | .word "ESC_ENCODE" :: r => withWord 0x2000 (seqAndCap asPlain r)
  | .word "ESC_DECODE" :: r => withWord 0x3000 (seqAndCap asEncoded r)
  | .word "FRM_SERIALIZE" :: r => withWord 0x4000 (idThen (seqAndCap asPlain) r)
  | .word "FRM_DESERIALIZE" :: r => withWord 0x5000 (seqOnly asPlain r)
  | .word "FRM_EXTRACT" :: r => withWord 0x6000 (seqOnly asEncoded r)
  | .word "REG_DECODE_PAYLOAD" :: r => withWord 0x7000 (idThen (seqOnly asPlain) r)
  | .word "REG_ENCODE_PAYLOAD" :: r => withWord 0x8000 (msgOnly r)
  | .word "TX_SEND" :: r => withWord 0x9000 (msgOnly r)
  | [.word "RX_PUT", .num n] => (fits 8 n).map fun b => [encode (.rxPut b)]
  | .word "RX_PUTS" :: .mark '[' :: r =>
    match listBody r with
    | some (bs, []) => some (rxPuts bs)
    | _ => none
  | [.word "RX_READY"] => some [encode .rxReady]
  | [.word "RX_COLLECT"] => some [encode .rxCollect]
  | [.word "RX_RESET"] => some [encode .rxReset]
  | _ => none

/-- The commands a line stands for (R98, R99), none where it is no command line. -/
def assembleLine (line : String) : Option (List Command) := assembleTokens (tokensFrom [] line.toList)

end Sys2Proof.Machine
end

