-- ==== Sys2Proof/Tests/Slice0.lean ====
section
/-! SUPPORT. Tests. Expected values come from spec/95_test_vectors.md (section numbers in the comments) or are worked out by
hand from the rules named; the last part gives a witness for every statement that has hypotheses. -/

namespace Sys2Proof.Tests

open Sys2Proof.Machine

/-! Helpers. -/

/-- The next state of an outcome, if it has one. -/
def next? (o : Host.Outcome State Fault Refusal) : Option State :=
  match o with
  | .next t => some t
  | .fault _ => none
  | .refused _ => none

/-- The response after an outcome. -/
def respOf (o : Host.Outcome State Fault Refusal) : Option Response := (next? o).bind State.resp

/-- A small instance: RX_CAP 8, OPND_MAX 3, TX_CAP 9, TX_ENC_CAP 10. -/
def small : Config := { Config.standard with rxCap := 8, opndMax := some 3, txCap := 9, txEncCap := 10 }

/-- A receiver of the small instance that holds `bs`. -/
def rx (st : RxState) (bs : List Byte) : State :=
  { State.resetWith small with rxSt := st, rxWr := bs.length, acc := Memory.setMany [] 0 bs }

/-- A small instance whose RXD holds a decoded SpectrumData frame with amplitudes [0x10, 0x20], borrowed. -/
def borrowed : State :=
  { State.resetWith small with
    rxd := Memory.setMany [] 0 [0xFD, 0x04, 0x00, 0x10, 0x20, 0xC0, 0xE2, 0xFE]
    slice := some { buf := .rxd, off := 3, len := 2 } }

/-- The wire bytes of Heartbeat of sequence number 7 (section 2.10). -/
def hb7 : List Byte := [0xFD, 0x00, 0x00, 0x07, 0xEC, 0x52, 0xFE]

/-- The wire bytes of SpectrumData of [10, 20] (section 2.10). -/
def sd2 : List Byte := [0xFD, 0x04, 0x00, 0x10, 0x20, 0xC0, 0xE2, 0xFE]

/-- The record with one sequence operand. -/
def seqOnly (x : ByteSeq) : OperandRecord := { OperandRecord.empty with seq := some x }

/-! Well-formedness: an ill-formed term for every command with a byte-sequence operand, which the check refuses (R95, R97
item 4), and the longest one it admits. -/

theorem test_illFormed_refused :
    (Instr.crc16 (.plain ⟨[1, 2, 3, 4]⟩)).wellFormed (some 3) = false ∧
    (Instr.crc16 (.encoded ⟨[1, 2, 3, 4]⟩)).wellFormed (some 3) = false ∧
    (Instr.escEncode ⟨[1, 2, 3, 4]⟩ 8).wellFormed (some 3) = false ∧
    (Instr.escDecode ⟨[1, 2, 3, 4]⟩ 8).wellFormed (some 3) = false ∧
    (Instr.frmSerialize 0 ⟨[1, 2, 3, 4]⟩ 16).wellFormed (some 3) = false ∧
    (Instr.frmDeserialize ⟨[1, 2, 3, 4]⟩).wellFormed (some 3) = false ∧
    (Instr.frmExtract ⟨[1, 2, 3, 4]⟩).wellFormed (some 3) = false ∧
    (Instr.regDecodePayload 0 ⟨[1, 2, 3, 4]⟩).wellFormed (some 3) = false := by decide

theorem test_longest_admitted :
    (Instr.crc16 (.plain ⟨[1, 2, 3]⟩)).wellFormed (some 3) = true ∧
    (Instr.frmExtract ⟨[1, 2, 3]⟩).wellFormed (some 3) = true ∧
    (Instr.frmExtract ⟨[1, 2, 3, 4]⟩).wellFormed none = true := by decide

theorem test_tooLong_step_refused :
    (step ((State.resetWith small).present [.command (encode (.frmExtract ⟨[1, 2, 3, 4]⟩))])) =
      .refused (.rejected .operandTooLong) := by rfl

/-! Decoding: the word of every command, bit by bit from R90 to R92, and its operands. -/

theorem test_decode_crc16 :
    decode { word := 0b0001000000000000, opnds := seqOnly (.plain ⟨[5]⟩) } = .ok (.crc16 (.plain ⟨[5]⟩)) := by rfl
theorem test_decode_escEncode :
    decode { word := 0b0010000000000000, opnds := { seqOnly (.plain ⟨[5]⟩) with cap := some 4 } } =
      .ok (.escEncode ⟨[5]⟩ 4) := by rfl
theorem test_decode_escDecode :
    decode { word := 0b0011000000000000, opnds := { seqOnly (.encoded ⟨[5]⟩) with cap := some 4 } } =
      .ok (.escDecode ⟨[5]⟩ 4) := by rfl
theorem test_decode_frmSerialize :
    decode { word := 0b0100000000000000, opnds := { seqOnly (.plain ⟨[5]⟩) with id := some 0x1234, cap := some 7 } } =
      .ok (.frmSerialize 0x1234 ⟨[5]⟩ 7) := by rfl
theorem test_decode_frmDeserialize :
    decode { word := 0b0101000000000000, opnds := seqOnly (.plain ⟨[5]⟩) } = .ok (.frmDeserialize ⟨[5]⟩) := by rfl
theorem test_decode_frmExtract :
    decode { word := 0b0110000000000000, opnds := seqOnly (.encoded ⟨[5]⟩) } = .ok (.frmExtract ⟨[5]⟩) := by rfl
theorem test_decode_regDecodePayload :
    decode { word := 0b0111000000000000, opnds := { seqOnly (.plain ⟨[5]⟩) with id := some 3 } } =
      .ok (.regDecodePayload 3 ⟨[5]⟩) := by rfl
theorem test_decode_regEncodePayload :
    decode { word := 0b1000000000000000, opnds := { OperandRecord.empty with msg := some (.heartbeat 9) } } =
      .ok (.regEncodePayload (.heartbeat 9)) := by rfl
theorem test_decode_txSend :
    decode { word := 0b1001000000000000, opnds := { OperandRecord.empty with msg := some (.heartbeat 9) } } =
      .ok (.txSend (.heartbeat 9)) := by rfl
theorem test_decode_rxPut :
    decode { word := 0b1010000011111101, opnds := OperandRecord.empty } = .ok (.rxPut 0xFD) := by rfl
theorem test_decode_rxReady : decode { word := 0b1011000000000000, opnds := OperandRecord.empty } = .ok .rxReady := by rfl
theorem test_decode_rxCollect :
    decode { word := 0b1100000000000000, opnds := OperandRecord.empty } = .ok .rxCollect := by rfl
theorem test_decode_rxReset : decode { word := 0b1101000000000000, opnds := OperandRecord.empty } = .ok .rxReset := by rfl

/-- Section 2.1: the words that are refused. -/
theorem test_decode_refused :
    decode { word := 0x0000, opnds := OperandRecord.empty } = .error .reservedOp ∧
    decode { word := 0xE000, opnds := OperandRecord.empty } = .error .reservedOp ∧
    decode { word := 0xFFFF, opnds := OperandRecord.empty } = .error .reservedOp ∧
    decode { word := 0x1100, opnds := seqOnly (.plain ⟨[]⟩) } = .error .reservedField ∧
    decode { word := 0xA1FD, opnds := OperandRecord.empty } = .error .reservedField ∧
    decode { word := 0xB001, opnds := OperandRecord.empty } = .error .immediateField ∧
    decode { word := 0x2000, opnds := { seqOnly (.encoded ⟨[]⟩) with cap := some 0 } } = .error .operandKind ∧
    decode { word := 0x3000, opnds := { seqOnly (.plain ⟨[]⟩) with cap := some 0 } } = .error .operandKind ∧
    decode { word := 0x2000, opnds := seqOnly (.plain ⟨[]⟩) } = .error .operandMissing := by
  refine ⟨rfl, rfl, rfl, rfl, rfl, rfl, rfl, rfl, rfl⟩

theorem test_tableWord :
    decodeTableWord 16 0x1000 = some (.crc16 (.plain ⟨[]⟩)) ∧ decodeTableWord 16 0xA0FD = some (.rxPut 0xFD) ∧
    decodeTableWord 16 0x6000 = some (.frmExtract ⟨[]⟩) ∧ decodeTableWord 16 0xF000 = none := by
  refine ⟨rfl, rfl, rfl, rfl⟩

/-- A table word placed on the port is what the next step runs. -/
theorem test_withFetchWord :
    (next? (step (State.reset.withFetchWord 16 0xA0FD))).map (fun t => (t.rxSt, t.rxWr, t.inputs)) =
      some (.frameOpen, 1, []) := by rfl

/-- R110's table, and the first reserved value (R111). -/
theorem test_errCode_bytes :
    ([.noError, .invalidMagic, .incorrectAlignment, .notEnoughData, .invalidCrc, .incomplete, .unknownMsgId,
      .outOfMemory, .messageNotReady] : List ErrCode).map ErrCode.code = [0, 1, 2, 3, 4, 5, 6, 7, 8] ∧
    ErrCode.ofCode 2 = some .incorrectAlignment ∧ ErrCode.ofCode 9 = none := by decide

/-- The err byte of a response: INCORRECT_ALIGNMENT is 2 (R236), success is 0, a refused command has none (R97). -/
theorem test_errByte :
    (respOf (exec (.regDecodePayload 0 ⟨[]⟩) State.reset)).bind Response.errByte = some 2 ∧
    (respOf (exec .rxReset State.reset)).bind Response.errByte = some 0 ∧
    (respOf (serve (State.reset.withFetchWord 16 0xE000))).bind Response.errByte = none := by decide

/-! The commands, from section 2. -/

/-- 2.2: Heartbeat 7, and the input of the printed vector with START put back (R146). -/
theorem test_crc16 :
    crc16 [0xFD, 0x00, 0x00, 0x07] = 21228 ∧
    respOf (exec (.crc16 (.encoded ⟨[0xFD, 0x00, 0x00]⟩)) State.reset) = okResp (some (.u16 28063)) := by
  refine ⟨by decide, by decide⟩

/-- 2.2: the catalogue check value of "123456789". -/
theorem test_crc16_catalogue : crc16 [0x31, 0x32, 0x33, 0x34, 0x35, 0x36, 0x37, 0x38, 0x39] = 0x29B1 := by decide

/-- 2.3: the worst case fits exactly, one byte less does not. -/
theorem test_escEncode :
    respOf (exec (.escEncode ⟨[0xFC, 0xFD, 0xFE]⟩ 6) State.reset) =
      okResp (some (.encoded ⟨[0xFC, 0x00, 0xFC, 0x01, 0xFC, 0x02]⟩)) ∧
    respOf (exec (.escEncode ⟨[0xFC, 0xFD, 0xFE]⟩ 5) State.reset) = errResp .notEnoughData := by
  refine ⟨by rfl, by rfl⟩

/-- 2.4: ESCAPE while pending, a non-canonical pair that wraps, an escaped END, a trailing ESCAPE. -/
theorem test_escDecode :
    escDecode [0xFC, 0xFC, 0x01] 3 = .ok [0xFD] ∧ escDecode [0xFC, 0x04] 2 = .ok [0x00] ∧
    escDecode [0xFC, 0xFE] 2 = .ok [0xFA] ∧ escDecode [0x41, 0xFC] 2 = .ok [0x41] := by
  refine ⟨rfl, rfl, rfl, rfl⟩

/-- 2.4: the capacity is checked against the encoded length. -/
theorem test_escDecode_capacity :
    respOf (exec (.escDecode ⟨[0xFC, 0x01, 0xFC, 0x02]⟩ 3) State.reset) = errResp .notEnoughData := by rfl

/-- 2.5: id and CRC low byte first, and the boundary of the capacity. -/
theorem test_frmSerialize :
    frmSerialize 0x1234 [0xAA] 7 = .ok [0xFD, 0x34, 0x12, 0xAA, 0xDF, 0x4A, 0xFE] ∧
    frmSerialize 0 [] 5 = .error (.err .notEnoughData) := by
  refine ⟨by decide, by decide⟩

/-- 2.6: a good frame, swapped CRC bytes, and START checked before the CRC. -/
theorem test_frmDeserialize :
    frmDeserialize [0xFD, 0x00, 0x00, 0x9F, 0x6D, 0xFE] = .ok { msgId := 0, payload := ⟨[]⟩, crc := 0x6D9F } ∧
    frmDeserialize [0xFD, 0x00, 0x00, 0x6D, 0x9F, 0xFE] = .error (.err .invalidCrc) ∧
    frmDeserialize [0x00, 0x00, 0x00, 0x00, 0x00, 0xFE] = .error (.err .invalidMagic) := by
  refine ⟨by decide, by decide, by decide⟩

/-- 2.7: the last START before the first END that follows a START (S4), and no END after a START. -/
theorem test_frmExtract :
    frmExtract [0x00, 0xFD, 0x01, 0xFD, 0x02, 0x03, 0x04, 0xFE, 0x05, 0x06, 0xFE, 0x07] =
      .ok (3, 5, [0xFD, 0x02, 0x03, 0x04, 0xFE]) ∧
    frmExtract [0xFE, 0xFD, 0x01, 0xFE] = .ok (1, 3, [0xFD, 0x01, 0xFE]) ∧
    frmExtract [0xFE, 0xFE] = .error (.err .incomplete) := by
  refine ⟨by decide, by decide, by decide⟩

/-- 2.8: byte order, the id before the length, the whole u16. -/
theorem test_regDecode :
    regDecode 1 [0x02, 0x00, 0xC8] RegSet.all = .ok (.ack 2 0xC8) ∧
    regDecode 3 [0x10, 0x27, 0x00, 0x00] RegSet.all = .ok (.startStreaming 10000) ∧
    regDecode 5 [] RegSet.all = .error (.err .unknownMsgId) ∧
    regDecode 0x0100 [0x00] RegSet.all = .error (.err .unknownMsgId) ∧
    regDecode 0 [0x05, 0x06] RegSet.all = .error (.err .incorrectAlignment) := by
  refine ⟨by decide, by decide, by decide, by decide, by decide⟩

/-- 2.8: SetFrequency's two fields in their order. -/
theorem test_regDecode_setFrequency :
    regDecode 2 [0xE8, 0x03, 0x00, 0x00, 0x00, 0x00, 0x80, 0x3F] RegSet.all = .ok (.setFrequency 1000 0x3F800000) := by
  decide

/-- 2.9. -/
theorem test_regEncode :
    regEncode (.ack 0xFDFE 0xFC) = [0xFE, 0xFD, 0xFC] ∧
    regEncode (.startStreaming 0x12345678) = [0x78, 0x56, 0x34, 0x12] ∧
    regEncode (.setFrequency 1000 0x3F800000) = [0xE8, 0x03, 0x00, 0x00, 0x00, 0x00, 0x80, 0x3F] := by
  refine ⟨by decide, by decide, by decide⟩

/-- 2.10: an Ack whose payload is all reserved bytes, and the CRC left unescaped. -/
theorem test_txSend :
    (next? (exec (.txSend (.ack 0xFDFE 0xFC)) State.reset)).map State.txOut =
      some [0xFD, 0x01, 0x00, 0xFC, 0x02, 0xFC, 0x01, 0xFC, 0x00, 0xE3, 0xC8, 0xFE] ∧
    (next? (exec (.txSend (.heartbeat 80)) State.reset)).map State.txOut =
      some [0xFD, 0x00, 0x00, 0x50, 0xFE, 0x78, 0xFE] := by
  refine ⟨by decide, by decide⟩

/-- 2.10: TX_ENC_CAP is checked against the worst case, and nothing is emitted. -/
theorem test_txSend_fails :
    (next? (exec (.txSend (.heartbeat 7)) (State.resetWith { small with txCap := 7, txEncCap := 5 }))).map
      (fun t => (t.resp, t.txOut)) = some (errResp .notEnoughData, []) ∧
    (next? (exec (.txSend (.heartbeat 7)) (State.resetWith { small with txCap := 7, txEncCap := 6 }))).map
      (fun t => (t.resp, t.txOut)) = some (okResp none, hb7) := by
  refine ⟨by decide, by decide⟩

/-- 2.11: the last byte that fits, and the one that does not. -/
theorem test_rxPut :
    (next? (exec (.rxPut 0xFD) (rx .idle [0x41, 0xFE, 1, 2, 3, 4, 5]))).map (fun t => (t.rxSt, t.rxWr)) =
      some (.frameOpen, 8) ∧
    (next? (exec (.rxPut 0xFE) (rx .frameOpen [0xFD, 1, 2, 3, 4, 5, 6, 7]))).map (fun t => (t.rxSt, t.rxWr)) =
      some (.overflow, 8) := by
  refine ⟨rfl, rfl⟩

/-- 2.11: START after END changes nothing. -/
theorem test_rxPut_ready :
    (next? (exec (.rxPut 0xFD) (rx .frameReady [0xFD, 0xFE]))).map (fun t => (t.rxSt, t.rxWr, t.acc.get 2)) =
      some (.frameReady, 3, some 0xFD) := by rfl

/-- 2.11. -/
theorem test_rxReady :
    respOf (exec .rxReady (rx .frameReady [0xFD, 0xFE])) = okResp (some (.bit true)) ∧
    respOf (exec .rxReady (rx .overflow [0, 0, 0, 0, 0, 0, 0, 0])) = okResp (some (.bit false)) := by
  refine ⟨rfl, rfl⟩

/-- 2.11: a collected SpectrumData borrows its amplitudes from RXD. -/
theorem test_rxCollect :
    (next? (exec .rxCollect (rx .frameReady sd2))).map
        (fun t => (t.resp, t.rxSt, t.rxWr, t.readSlice 0, t.readSlice 1, t.readSlice 2)) =
      some (okResp (some (.msg (.spectrumData [0x10, 0x20]) (some { buf := .rxd, off := 3, len := 2 }))), .idle, 0,
        .ok 0x10, .ok 0x20, .error .outOfRange) := by rfl

/-- 2.11: the slice FD FE is two bytes long, and the receiver is reset all the same. -/
theorem test_rxCollect_fails :
    (next? (exec .rxCollect (rx .frameReady [0xFD, 0xFE, 0xFD]))).map (fun t => (t.resp, t.rxSt, t.rxWr)) =
      some (errResp .notEnoughData, .idle, 0) := by rfl

/-- 2.11. -/
theorem test_rxReset :
    (next? (exec .rxReset (rx .overflow [0, 0, 0, 0, 0, 0, 0, 0]))).map (fun t => (t.rxSt, t.rxWr, t.resp)) =
      some (.idle, 0, okResp none) := by rfl

/-- R36: STATUS with RX_CAP 8 has a count of 4 bits; FRAME_READY with 3 bytes is 2 + 4 * 3. -/
theorem test_status : (rx .frameReady [0xFD, 0xFE, 0]).status = (14 : BitVec 6) := by rfl

/-! Command lines (R98, R99). -/

theorem test_assemble_sequence :
    assembleLine "CRC16 [0xFD, 0x00, 0x00]  ; a comment" =
      some [{ word := 0x1000, opnds := seqOnly (.plain ⟨[0xFD, 0, 0]⟩) }] ∧
    assembleLine "FRM_EXTRACT enc[0x01, 2]" =
      some [{ word := 0x6000, opnds := seqOnly (.encoded ⟨[1, 2]⟩) }] := by
  refine ⟨by decide, by decide⟩

theorem test_assemble_puts :
    assembleLine "RX_PUTS [0xFD, 0]" =
      some [{ word := 0xA0FD, opnds := OperandRecord.empty }, { word := 0xA000, opnds := OperandRecord.empty }] ∧
    assembleLine "RX_PUT 256" = none ∧ assembleLine "; nothing" = some [] := by
  refine ⟨by decide, by decide, by decide⟩

theorem test_assemble_message :
    assembleLine ("TX_SEND Heartbeat" ++ String.ofList [braceOpen] ++ "seq=7" ++ String.ofList [braceClose]) =
      some [{ word := 0x9000, opnds := { OperandRecord.empty with msg := some (.heartbeat 7) } }] := by decide

/-! Witnesses: for every statement that has hypotheses, states and operands that meet them together, each clause at a
boundary of its range. The invariant's witnesses first. -/

/-- A receiver that holds bytes of the shape its state says meets the invariant. -/
theorem rx_inv (st : RxState) (bs : List Byte) (hl : bs.length ≤ 8) (hs : receiverShape st bs)
    (hf : st = .overflow → bs.length = 8) : (rx st bs).Inv := by
  have hacc : Memory.wf 8 (Memory.setMany [] 0 bs) = true := Memory.wf_setMany 8 bs [] 0 (by omega) rfl
  refine ⟨rfl, ?_, ⟨bs, ?_, hs⟩, hf, fun v h => (by cases h), fun r h => (by cases h)⟩
  · intro B
    cases B
    · exact hacc
    · rfl
    · rfl
    · rfl
  · exact State.memRead_setMem_setMany (rx st bs) .acc [] 0 bs (by simpa [State.size, rx, small] using hl)

theorem witness_inv_idle : (rx .idle [0x41, 0xFE]).Inv :=
  rx_inv _ _ (by decide) (by simp [receiverShape, startByte]) nofun

theorem witness_inv_overflow : (rx .overflow [0xFD, 1, 2, 3, 4, 5, 6, 7]).Inv :=
  rx_inv _ _ (by decide) trivial (fun _ => rfl)

theorem witness_inv_frameOpen : (rx .frameOpen [0xFD, 1, 2, 3, 4, 5, 6, 7]).Inv :=
  rx_inv _ _ (by decide) ⟨[], [1, 2, 3, 4, 5, 6, 7], rfl, by decide, by decide⟩ nofun

theorem witness_inv_frameReady : (rx .frameReady sd2).Inv :=
  rx_inv _ _ (by decide) ⟨[], [0x04, 0x00, 0x10, 0x20, 0xC0, 0xE2], [], rfl, by decide, by decide⟩ nofun

theorem witness_inv_borrowed : borrowed.Inv := by
  refine ⟨rfl, ?_, ⟨[], rfl, by simp [receiverShape, borrowed, State.resetWith]⟩, nofun, ?_, nofun⟩
  · intro B
    cases B <;> decide
  · intro v h
    cases h
    exact ⟨rfl, rfl, [0x10, 0x20], rfl⟩

/-! Encoding and steps. -/

theorem witness_DecodeOfEncodeIsIdentity :
    (Instr.escEncode ⟨[1, 2, 3]⟩ 0).wellFormed small.opndMax = true ∧ (Instr.rxReady).wellFormed (some 0) = true := by
  decide

theorem witness_DecodedCommandHasTheEncodedWord :
    decode { word := 0x4000, opnds := { seq := some (.plain ⟨[]⟩), id := some 0xFFFF, cap := some 0, msg := some (.heartbeat 0) } }
      = .ok (.frmSerialize 0xFFFF ⟨[]⟩ 0) := by rfl

theorem witness_WordDecodesExactlyWhenItMatchesOneRow :
    (⟨"RX_PUT", 0xA000, 0xFF00⟩ : Row) ∈ commandTable ∧ (0xA0FF : Word) &&& 0xFF00 = 0xA000 := by decide

theorem witness_StepRunsTheDecodedCommand :
    ((rx .idle []).present [.command (encode (.crc16 (.plain ⟨[1, 2, 3]⟩)))]).inputs =
      .command (encode (.crc16 (.plain ⟨[1, 2, 3]⟩))) :: [] ∧
    decode (encode (.crc16 (.plain ⟨[1, 2, 3]⟩))) = .ok (.crc16 (.plain ⟨[1, 2, 3]⟩)) ∧
    (Instr.crc16 (.plain ⟨[1, 2, 3]⟩)).wellFormed (rx .idle []).cfg.opndMax = true := by
  refine ⟨rfl, rfl, rfl⟩

theorem witness_EmptyPortHoldsTheState : (rx .frameOpen [0xFD]).inputs = [] := by rfl

/-- A refused command (a reserved OP; an operand one byte too long) and an accepted one (an operand of exactly OPND_MAX
bytes), each at the head of the port. -/
theorem witness_RefusedExactlyWhenReservedOrOperandsUnfit :
    ((rx .idle []).present [.command { word := 0xE000, opnds := OperandRecord.empty }]).inputs =
      .command { word := 0xE000, opnds := OperandRecord.empty } :: [] ∧
    next? (serve ((rx .idle []).present [.command { word := 0x1000, opnds := seqOnly (.plain ⟨[1, 2, 3, 4]⟩) }])) =
      some { rx .idle [] with resp := refusedResp } ∧
    respOf (serve ((rx .idle []).present [.command { word := 0x5000, opnds := seqOnly (.plain ⟨[1, 2, 3]⟩) }])) =
      errResp .notEnoughData := by
  refine ⟨rfl, rfl, rfl⟩

theorem witness_ResetInputGivesTheFreshReceiver :
    ((rx .overflow [0, 0, 0, 0, 0, 0, 0, 0]).present [.reset]).inputs = .reset :: [] := by rfl

theorem witness_AnyCommandCompletesFirstAfterReset :
    ({ small with rxCap := 1 } : Config).wf = true ∧ (Instr.regDecodePayload 7 ⟨[1, 2, 3]⟩).wellFormed small.opndMax = true := by
  decide

theorem witness_StatusShowsStateAndCount :
    (rx .idle []).rxWr ≤ (rx .idle []).cfg.rxCap ∧
    (rx .overflow [0, 0, 0, 0, 0, 0, 0, 0]).rxWr ≤ (rx .overflow [0, 0, 0, 0, 0, 0, 0, 0]).cfg.rxCap := by decide

theorem witness_ResetMeetsTheInvariant : ({ small with rxCap := 1 } : Config).wf = true := by rfl

/-! The invariant over steps. -/

theorem witness_StepKeepsTheInvariant :
    ∃ s t, State.Inv s ∧ step s = .next t ∧ t.rxSt = .overflow ∧ s.rxSt = .frameOpen := by
  refine ⟨(rx .frameOpen [0xFD, 1, 2, 3, 4, 5, 6, 7]).setInputs [.command (encode (.rxPut 0xFE))], _, ?_, rfl, rfl, rfl⟩
  have h := witness_inv_frameOpen
  exact ⟨h.legal, h.canonical, h.stored, h.full, h.slice, h.response⟩

theorem witness_EveryCommandCompletesWithoutFault : ∃ s, State.Inv s ∧ s.rxSt = .frameReady :=
  ⟨_, witness_inv_frameReady, rfl⟩

theorem witness_ReceiverInvariantsHoldAfterEveryStep :
    ∃ s t, State.Inv s ∧ step s = .next t ∧ t.rxSt = .frameOpen ∧ s.rxSt = .idle := by
  refine ⟨(rx .idle [0x41, 0xFE]).setInputs [.command (encode (.rxPut 0xFD))], _, ?_, rfl, rfl, rfl⟩
  have h := witness_inv_idle
  exact ⟨h.legal, h.canonical, h.stored, h.full, h.slice, h.response⟩

/-- One command per code byte 1 to 8: the hypotheses of each clause, in states that meet the invariant. -/
theorem witness_ErrorCodesComeOnlyFromTheirCommands :
    (∃ s t, State.Inv s ∧ exec .rxCollect s = .next t ∧ ErrCode.outOfMemory ≠ .noError ∧ t.resp = errResp .outOfMemory) ∧
    (rx .idle [0x41, 0xFE]).Inv ∧
    ([.frmDeserialize ⟨[0, 0, 0, 0, 0, 0]⟩, .regDecodePayload 0 ⟨[]⟩, .escEncode ⟨[1]⟩ 1,
      .frmDeserialize ⟨[0xFD, 0, 0, 0, 0, 0xFE]⟩, .frmExtract ⟨[]⟩, .regDecodePayload 5 ⟨[]⟩, .rxCollect].map
        fun i => (respOf (exec i (rx .idle [0x41, 0xFE]))).bind Response.errByte) =
      [some 1, some 2, some 3, some 4, some 5, some 6, some 8] := by
  refine ⟨⟨_, _, witness_inv_overflow, rfl, by decide, rfl⟩, witness_inv_idle, by decide⟩

/-! Whole-machine rules. -/

theorem witness_FunctionUnitsReadOnlyOperands :
    isFunctionUnit (.regDecodePayload 0 ⟨[7]⟩) = true ∧ (rx .idle []).cfg.regRx = State.reset.cfg.regRx := by decide

theorem witness_NoStepChangesTheConfiguration : ∃ t, step ((rx .overflow []).present [.reset]) = .next t := ⟨_, rfl⟩

theorem witness_OnlyReceiverCommandsWriteTheReceiver :
    ∃ t, exec (.txSend (.heartbeat 7)) (rx .frameReady sd2) = .next t ∧ writesReceiver (.txSend (.heartbeat 7)) = false :=
  ⟨_, rfl, rfl⟩

theorem witness_OnlyTxSendEmitsAndOutputGrows :
    ∃ t, exec .rxCollect (rx .frameReady sd2) = .next t ∧ ∀ m, Instr.rxCollect ≠ .txSend m := ⟨_, rfl, nofun⟩

theorem witness_OverflowIsStickyUntilDrained :
    (∃ t, (rx .overflow []).rxSt = .overflow ∧ exec (.rxPut 0xFE) (rx .overflow []) = .next t) ∧
    (∃ t, exec .rxCollect (rx .overflow []) = .next t) ∧
    ∃ t, ((rx .overflow []).present [.reset]).rxSt = .overflow ∧
      ((rx .overflow []).present [.reset]).inputs = .reset :: [] ∧ step ((rx .overflow []).present [.reset]) = .next t :=
  ⟨⟨_, rfl, rfl⟩, ⟨_, rfl⟩, ⟨_, rfl, rfl, rfl⟩⟩

theorem witness_SliceValidityWindow :
    (∃ t, borrowed.Inv ∧ writesReceiver .rxReady = false ∧ exec .rxReady borrowed = .next t ∧ t.readSlice 1 = .ok 0x20) ∧
    (∃ t, exec (.rxPut 0) borrowed = .next t) ∧ (∃ t, exec .rxReset borrowed = .next t) ∧
    (∃ t, exec .rxCollect borrowed = .next t ∧ ∀ a v, t.resp ≠ okResp (some (.msg (.spectrumData a) v))) ∧
    borrowed.readSlice 0 = .ok 0x10 := by
  refine ⟨⟨_, witness_inv_borrowed, rfl, rfl, rfl⟩, ⟨_, rfl⟩, ⟨_, rfl⟩, ⟨_, rfl, ?_⟩, rfl⟩
  intro a v h
  cases h

/-! Buffers and views. -/

theorem witness_BufferWriteThenRead :
    (6 + 2 ≤ (rx .idle []).size .rxd ∧ ([1, 2] : List Byte).length = 2) ∧ (rx .idle []).size .rxd < 7 + 2 := by decide

theorem witness_ViewPrimitivesConsumeTheirBytes :
    (Cursor.mk [9, 1, 2, 9] 1 2).bytes = .ok [1, 2] ∧ 2 ≤ ([1, 2] : List Byte).length ∧ ([1, 2] : List Byte).length < 3 ∧
    (Cursor.mk [9] 1 0).bytes = .ok [] ∧ ([1, 2] : List Byte) = 1 :: [2] ∧ ([1, 2] : List Byte) = [1] ++ [2] ∧
    ([1, 2] : List Byte) = 1 :: 2 :: [] ∧ ([1, 2] : List Byte) = [] ++ [1, 2] ∧
    (Cursor.mk [9, 1] 1 1).bytes = .ok [1] ∧ ([1] : List Byte).length < 2 ∧
    1 + 3 ≤ (Cursor.mk [9, 1, 2, 9] 1 2).base.length ∧ (Cursor.mk [9, 1, 2, 9] 1 2).base.length < 1 + 4 := by
  repeat' first | apply And.intro | decide

/-! Codecs and registry. -/

theorem witness_EscDecodeInvertsEscEncode :
    2 * ([0xFC, 0xFD] : List Byte).length ≤ 4 ∧ (Encoded.mk [0xFC, 0x00, 0xFC, 0x01]).bytes.length ≤ 4 := by decide

theorem witness_EscapedRegionHoldsNoMarker :
    ∃ t, exec (.escEncode ⟨[0xFC, 0x41]⟩ 4) State.reset = .next t ∧
      t.resp = okResp (some (.encoded ⟨[0xFC, 0x00, 0x41]⟩)) ∧
      ([0xFC, 0x00, 0x41] : List Byte) = [] ++ 0xFC :: [0x00, 0x41] := ⟨_, rfl, rfl, rfl⟩

theorem witness_FrmDeserializeChecksInOrder :
    ([1, 2, 3, 4, 5] : List Byte).length < 6 ∧ 6 ≤ ([1, 2, 3, 4, 5, 6] : List Byte).length := by decide

theorem witness_FrmDeserializeInvertsFrmSerialize : (Plain.mk [1, 2]).bytes.length + 6 ≤ 8 := by decide

theorem witness_FrmExtractTakesTheLastStart :
    ((∀ b ∈ ([0xFE, 0x41] : List Byte), b ≠ 0xFD) ∧ (∀ b ∈ ([0xFD, 0x41] : List Byte), b ≠ 0xFE) ∧
      (∀ b ∈ ([] : List Byte), b ≠ 0xFD ∧ b ≠ 0xFE)) ∧
    (∀ b ∈ ([0xFE] : List Byte), b ≠ 0xFD) ∧ ∀ b ∈ ([0xFD, 0xFD] : List Byte), b ≠ 0xFE := by decide

/-- For each id: not registered, the wrong length, the right length; and the first id that names no message. -/
theorem witness_RegDecodeDispatchesOnTheId :
    let none' : RegSet := ⟨false, false, false, false, false⟩
    (4 < (5 : U16).toNat ∧ 4 < (0xFFFF : U16).toNat) ∧
    (none'.heartbeat = false ∧ none'.ack = false ∧ none'.setFrequency = false ∧ none'.startStreaming = false ∧
      none'.spectrumData = false) ∧
    (State.reset.cfg.regRx.heartbeat = true ∧ State.reset.cfg.regRx.ack = true ∧
      State.reset.cfg.regRx.setFrequency = true ∧ State.reset.cfg.regRx.startStreaming = true ∧
      State.reset.cfg.regRx.spectrumData = true) ∧
    ((Plain.mk []).bytes.length ≠ 1 ∧ (Plain.mk [1, 2]).bytes.length ≠ 3 ∧ (Plain.mk [1]).bytes.length ≠ 8 ∧
      (Plain.mk [1, 2, 3]).bytes.length ≠ 4) ∧
    (Plain.mk [7]).bytes = [7] ∧ (Plain.mk [2, 0, 2]).bytes = [2, 0, 2] ∧
    (Plain.mk [0xE8, 3, 0, 0, 0, 0, 0x80, 0x3F]).bytes = [0xE8, 3, 0, 0, 0, 0, 0x80, 0x3F] ∧
    (Plain.mk [0x10, 0x27, 0, 0]).bytes = [0x10, 0x27, 0, 0] := by decide

theorem witness_RegDecodeInvertsRegEncode :
    registered State.reset.cfg.regRx (msgId (.spectrumData [])) = true ∧ (rx .idle []).cfg.regRx = State.reset.cfg.regRx := by
  decide

/-! Sender. -/

/-- TX_CAP 9 and TX_ENC_CAP 10 are exactly what a payload of three bytes needs. -/
theorem witness_TxSendEmitsTheWireStream :
    registered small.regTx (msgId (.ack 2 2)) = true ∧ (regEncode (.ack 2 2)).length + 6 ≤ small.txCap ∧
    2 * ((regEncode (.ack 2 2)).length + 2) ≤ small.txEncCap := by decide

theorem witness_FailedTxSendEmitsNothing :
    registered ⟨true, false, false, false, false⟩ (msgId (.ack 2 2)) = false ∧
    (registered small.regTx (msgId (.startStreaming 0)) = true ∧ small.txCap < (regEncode (.startStreaming 0)).length + 6) ∧
    (registered small.regTx (msgId (.startStreaming 0)) = true ∧
      small.txEncCap < 2 * ((regEncode (.startStreaming 0)).length + 2)) := by decide

theorem witness_TxSendSucceedsExactlyWhenItFits :
    ∃ t, exec (.txSend (.ack 2 2)) (State.resetWith small) = .next t ∧ t.resp = okResp none := ⟨_, rfl, by decide⟩

/-! Receiver. -/

theorem witness_RxPutStoresThenTransitions :
    ((rx .overflow [0, 0, 0, 0, 0, 0, 0, 0]).rxWr ≤ 8 ∧ (rx .overflow [0, 0, 0, 0, 0, 0, 0, 0]).rxSt = .overflow) ∧
    ((rx .frameReady sd2).rxSt ≠ .overflow ∧ (rx .frameReady sd2).rxWr = (rx .frameReady sd2).cfg.rxCap) ∧
    ((rx .frameReady hb7).rxSt ≠ .overflow ∧ (rx .frameReady hb7).rxWr < (rx .frameReady hb7).cfg.rxCap) ∧
    (rx .idle []).rxWr < (rx .idle []).cfg.rxCap := by decide

theorem witness_BytesBeyondCapacityOverflow :
    (rx .frameReady hb7).rxSt ≠ .overflow ∧ (rx .frameReady hb7).rxWr ≤ (rx .frameReady hb7).cfg.rxCap ∧
    (rx .frameReady hb7).cfg.rxCap - (rx .frameReady hb7).rxWr < ([1, 2] : List Byte).length := by decide

theorem witness_RxReadyAnswersTheReadyFlag :
    (rx .frameReady sd2).rxSt = .frameReady ∧ (rx .overflow []).rxSt ≠ .frameReady := by decide

theorem witness_RxCollectWithoutAFrame :
    (rx .overflow []).rxSt = .overflow ∧ (rx .idle []).rxSt = .idle ∧ (rx .frameOpen [0xFD]).rxSt = .frameOpen := by decide

theorem witness_RxCollectReturnsTheMessage :
    (rx .frameReady sd2).rxSt = .frameReady ∧ (rx .frameReady sd2).memRead .acc 0 8 = .ok sd2 ∧
    frmExtract sd2 = .ok (0, 8, sd2) ∧ escDecode sd2 8 = .ok sd2 ∧
    frmDeserialize sd2 = .ok { msgId := 4, payload := ⟨[0x10, 0x20]⟩, crc := 0xE2C0 } ∧
    regDecode 4 [0x10, 0x20] small.regRx = .ok (.spectrumData [0x10, 0x20]) := by
  refine ⟨rfl, rfl, by decide, by decide, by decide, by decide⟩

/-- Each of the four stages as the first that fails. The first cannot fail in a state that meets the invariant (R298). -/
theorem witness_RxCollectReportsTheFirstFailingStage :
    ((rx .frameReady [0xFD]).memRead .acc 0 1 = .ok [0xFD] ∧ frmExtract [0xFD] = .error (.err .incomplete)) ∧
    (frmExtract hb7 = .ok (0, 7, hb7) ∧ escDecode hb7 6 = .error (.err .notEnoughData)) ∧
    (frmExtract [0xFD, 0xFE] = .ok (0, 2, [0xFD, 0xFE]) ∧ escDecode [0xFD, 0xFE] 8 = .ok [0xFD, 0xFE] ∧
      frmDeserialize [0xFD, 0xFE] = .error (.err .notEnoughData)) ∧
    (frmDeserialize [0xFD, 0x05, 0x00, 0x6A, 0x92, 0xFE] = .ok { msgId := 5, payload := ⟨[]⟩, crc := 0x926A } ∧
      regDecode 5 [] small.regRx = .error (.err .unknownMsgId)) := by
  refine ⟨⟨rfl, by decide⟩, ⟨by decide, by decide⟩, ⟨by decide, by decide, by decide⟩, by decide, by decide⟩

theorem witness_CollectedSliceReadsTheAmplitudes :
    ∃ t, exec .rxCollect (rx .frameReady sd2) = .next t ∧
      t.resp = okResp (some (.msg (.spectrumData [0x10, 0x20]) (some { buf := .rxd, off := 3, len := 2 }))) := ⟨_, rfl, by decide⟩

/-! End to end. -/

/-- Heartbeat 7 has CRC 0x52EC; the stream of eight bytes fills ACC exactly. -/
theorem witness_SentMessageIsCollected :
    (crc16 ([0xFD, (msgId (.heartbeat 7)).extractLsb' 0 8, (msgId (.heartbeat 7)).extractLsb' 8 8] ++ regEncode (.heartbeat 7))
      = 0x52EC) ∧
    ((0x52EC : U16).extractLsb' 0 8 : Byte) ∉ ([0xFC, 0xFD, 0xFE] : List Byte) ∧
    ((0x52EC : U16).extractLsb' 8 8 : Byte) ∉ ([0xFC, 0xFD, 0xFE] : List Byte) ∧
    registered small.regRx (msgId (.heartbeat 7)) = true ∧
    (∃ t, exec (.txSend (.heartbeat 7)) (State.resetWith small) = .next t ∧ t.resp = okResp none ∧
      t.txOut = (State.resetWith small).txOut ++ hb7 ∧ t.rxSt = .idle ∧ t.rxWr = 0) ∧
    (∀ b ∈ ([0xFE] : List Byte), b ≠ 0xFD) ∧ ([0xFE] ++ [] ++ hb7 ++ []).length ≤ small.rxCap := by
  refine ⟨by decide, by decide, by decide, by decide, ⟨_, rfl, rfl, by decide, rfl, rfl⟩, by decide, by decide⟩

/-- Ids and payloads whose CRC bytes (low, high) fall under each clause of R357's table, at each payload length the clause
tells apart: FC FC, FC FD, FC FE, FC other, FE any (and one whose shortened frame has the right CRC), other FC, other FD,
other FE, FD any, other other. Found by running R141's recurrence over ids in a script. -/
theorem witness_CrcCollisionOutcomes :
    (rx .idle []).rxSt = .idle ∧ (rx .idle []).rxWr = 0 ∧ (wire 0 [7]).length ≤ (rx .idle []).cfg.rxCap ∧
    crc16 [0xFD, 0x89, 0x3] = 0xFCFC ∧ crc16 [0xFD, 0x90, 0x9E, 0x41, 0x42] = 0xFCFC ∧
    crc16 [0xFD, 0xAA, 0x17] = 0xFDFC ∧ crc16 [0xFD, 0xCF, 0x2B] = 0xFEFC ∧
    crc16 [0xFD, 0x39, 0x90, 0x41, 0x42] = 0xFEFC ∧ crc16 [0xFD, 0x11, 0x1] = 0x4DFC ∧
    crc16 [0xFD, 0x10, 0x0, 0x41, 0x42] = 0x42FC ∧ crc16 [0xFD, 0x26, 0x1] = 0xD1FE ∧
    crc16 [0xFD, 0x10, 0x10, 0x41] = 0x3AFE ∧ crc16 [0xFD, 0x69, 0x0, 0x41, 0x42] = 0xF3FE ∧
    crc16 [0xFD, 0x0, 0x0, 0x9F, 0x6D] = 0xBAFE ∧ crc16 [0xFD, 0x77, 0x0] = 0xFC51 ∧
    crc16 [0xFD, 0x20, 0x0, 0x41] = 0xFC28 ∧ crc16 [0xFD, 0x3D, 0x0, 0x41] = 0xFD1A ∧
    crc16 [0xFD, 0x78, 0x10] = 0xFE5E ∧ crc16 [0xFD, 0x15, 0x0, 0x41, 0x42] = 0xFEB9 ∧
    crc16 [0xFD, 0x0, 0x0, 0x35] = 0x44FD ∧ crc16 [0xFD, 0x0, 0x0, 0x7] = 0x52EC ∧
    crc16 [0xFD, 0, 0] = 0x6D9F := by
  repeat' first | apply And.intro | decide

end Sys2Proof.Tests
end

/-! PROOFS. The view primitives (R11): what each answers on a view whose bytes are known, and O24 from these. -/

namespace Sys2Proof.Machine

/-! The bytes of a view -/

/-- A view has bytes exactly when it lies inside its buffer (R62). -/
theorem Cursor.bytes_eq_ok_iff (v : Cursor) (xs : List Byte) :
    v.bytes = .ok xs ↔ v.off + v.len ≤ v.base.length ∧ (v.base.drop v.off).take v.len = xs := by
  have hslice : (v.base.take (v.off + v.len)).drop v.off = (v.base.drop v.off).take v.len := by
    rw [List.drop_take, Nat.add_sub_cancel_left]
  by_cases h : v.off + v.len ≤ v.base.length
  · simp [Cursor.bytes, sliceOf, h, hslice]
  · simp [Cursor.bytes, sliceOf, h, faulted]

theorem Cursor.len_of_bytes {v : Cursor} {xs : List Byte} (h : v.bytes = .ok xs) : v.len = xs.length := by
  obtain ⟨hin, rfl⟩ := (v.bytes_eq_ok_iff xs).mp h
  rw [List.length_take, List.length_drop]
  omega

/-- The byte the buffer holds under position `k` of the view. -/
theorem Cursor.byteAt_of_bytes {v : Cursor} {xs : List Byte} (h : v.bytes = .ok xs) {k : Nat} {b : Byte}
    (hk : xs[k]? = some b) : byteAt v.base (v.off + k) = .ok b := by
  obtain ⟨-, rfl⟩ := (v.bytes_eq_ok_iff xs).mp h
  rw [List.getElem?_take, Option.ite_none_right_eq_some, List.getElem?_drop] at hk
  simp [byteAt, hk.2]

/-! Narrowing and resizing -/

theorem Cursor.removePrefix_of_bytes {v : Cursor} {xs : List Byte} (h : v.bytes = .ok xs) {n : Nat}
    (hn : n ≤ xs.length) : ∃ w, v.removePrefix n = .ok w ∧ w.bytes = .ok (xs.drop n) := by
  have hlen := Cursor.len_of_bytes h
  obtain ⟨hin, rfl⟩ := (v.bytes_eq_ok_iff xs).mp h
  refine ⟨_, if_pos (by omega), (Cursor.bytes_eq_ok_iff _ _).mpr ⟨by dsimp only; omega, ?_⟩⟩
  rw [List.drop_take, List.drop_drop]

theorem Cursor.removePostfix_of_bytes {v : Cursor} {xs : List Byte} (h : v.bytes = .ok xs) {n : Nat}
    (hn : n ≤ xs.length) : ∃ w, v.removePostfix n = .ok w ∧ w.bytes = .ok (xs.take (xs.length - n)) := by
  have hlen := Cursor.len_of_bytes h
  rw [← hlen]
  obtain ⟨hin, rfl⟩ := (v.bytes_eq_ok_iff xs).mp h
  refine ⟨_, if_pos (by omega), (Cursor.bytes_eq_ok_iff _ _).mpr ⟨by dsimp only; omega, ?_⟩⟩
  rw [List.take_take, Nat.min_eq_left (Nat.sub_le ..)]

theorem Cursor.removePrefix_past_view {v : Cursor} {n : Nat} (hn : v.len < n) :
    v.removePrefix n = .error (.fault .outOfRange) := if_neg (by omega)

theorem Cursor.removePostfix_past_view {v : Cursor} {n : Nat} (hn : v.len < n) :
    v.removePostfix n = .error (.fault .outOfRange) := if_neg (by omega)

/-- `resize` may lengthen the view: only the end of the buffer bounds it. -/
theorem Cursor.resize_inside_buffer {v : Cursor} {n : Nat} (hn : v.off + n ≤ v.base.length) :
    ∃ w, v.resize n = .ok w ∧ w.size = n ∧ w.bytes = .ok ((v.base.drop v.off).take n) :=
  ⟨_, if_pos hn, rfl, (Cursor.bytes_eq_ok_iff _ _).mpr ⟨hn, rfl⟩⟩

theorem Cursor.resize_of_bytes {v : Cursor} {xs : List Byte} (h : v.bytes = .ok xs) {n : Nat} (hn : n ≤ xs.length) :
    ∃ w, v.resize n = .ok w ∧ w.bytes = .ok (xs.take n) := by
  have hlen := Cursor.len_of_bytes h
  obtain ⟨hin, rfl⟩ := (v.bytes_eq_ok_iff xs).mp h
  obtain ⟨w, hw, -, hb⟩ := Cursor.resize_inside_buffer (v := v) (n := n) (by omega)
  exact ⟨w, hw, by rw [hb, List.take_take, Nat.min_eq_left (by omega)]⟩

theorem Cursor.resize_past_buffer {v : Cursor} {n : Nat} (hn : v.base.length < v.off + n) :
    v.resize n = .error (.fault .outOfRange) := if_neg (by omega)

/-! Reading at the ends -/

theorem Cursor.front_of_bytes {v : Cursor} {b : Byte} {rest : List Byte} (h : v.bytes = .ok (b :: rest)) :
    v.front = .ok b := by
  have hlen := Cursor.len_of_bytes h
  rw [List.length_cons] at hlen
  rw [Cursor.front, if_pos (by omega)]
  exact Cursor.byteAt_of_bytes (k := 0) h rfl

theorem Cursor.back_of_bytes {v : Cursor} {b : Byte} {rest : List Byte} (h : v.bytes = .ok (rest ++ [b])) :
    v.back = .ok b := by
  have hlen := Cursor.len_of_bytes h
  rw [List.length_append, List.length_singleton] at hlen
  rw [Cursor.back, if_pos (by omega), show v.off + v.len - 1 = v.off + rest.length by omega]
  exact Cursor.byteAt_of_bytes h (by simp)

theorem Cursor.takeOne_of_bytes {v : Cursor} {b : Byte} {rest : List Byte} (h : v.bytes = .ok (b :: rest)) :
    ∃ w, v.takeOne = .ok (b, w) ∧ w.bytes = .ok rest := by
  obtain ⟨w, hw, hb⟩ := Cursor.removePrefix_of_bytes h (n := 1) (by simp)
  exact ⟨w, by simp [Cursor.takeOne, Cursor.front_of_bytes h, hw, Except.bind, Except.map], hb⟩

theorem Cursor.dropOne_of_bytes {v : Cursor} {b : Byte} {rest : List Byte} (h : v.bytes = .ok (rest ++ [b])) :
    ∃ w, v.dropOne = .ok (b, w) ∧ w.bytes = .ok rest := by
  obtain ⟨w, hw, hb⟩ := Cursor.removePostfix_of_bytes h (n := 1) (by simp)
  exact ⟨w, by simp [Cursor.dropOne, Cursor.back_of_bytes h, hw, Except.bind, Except.map], by simpa using hb⟩

theorem Cursor.takeTwo_of_bytes {v : Cursor} {b₀ b₁ : Byte} {rest : List Byte}
    (h : v.bytes = .ok (b₀ :: b₁ :: rest)) :
    ∃ w, v.takeTwo = .ok (b₁ ++ b₀, w) ∧ w.bytes = .ok rest := by
  have hlen := Cursor.len_of_bytes h
  have h0 : byteAt v.base v.off = .ok b₀ := Cursor.byteAt_of_bytes (k := 0) h rfl
  have h1 : byteAt v.base (v.off + 1) = .ok b₁ := Cursor.byteAt_of_bytes h rfl
  obtain ⟨w, hw, hb⟩ := Cursor.removePrefix_of_bytes h (n := 2) (by simp)
  refine ⟨w, ?_, hb⟩
  rw [Cursor.takeTwo, if_pos (by simp [hlen]), h0, h1, hw, ← le16_eq_append]
  rfl

theorem Cursor.dropTwo_of_bytes {v : Cursor} {b₀ b₁ : Byte} {rest : List Byte}
    (h : v.bytes = .ok (rest ++ [b₀, b₁])) :
    ∃ w, v.dropTwo = .ok (b₁ ++ b₀, w) ∧ w.bytes = .ok rest := by
  have hlen : v.len = rest.length + 2 := by simpa using Cursor.len_of_bytes h
  have h0 : byteAt v.base (v.off + v.len - 2) = .ok b₀ := by
    rw [show v.off + v.len - 2 = v.off + rest.length by omega]
    exact Cursor.byteAt_of_bytes h (by simp)
  have h1 : byteAt v.base (v.off + v.len - 1) = .ok b₁ := by
    rw [show v.off + v.len - 1 = v.off + (rest.length + 1) by omega]
    exact Cursor.byteAt_of_bytes h (by simp)
  obtain ⟨w, hw, hb⟩ := Cursor.removePostfix_of_bytes h (n := 2) (by simp)
  refine ⟨w, ?_, by simpa using hb⟩
  rw [Cursor.dropTwo, if_pos (by omega), h0, h1, hw, ← le16_eq_append]
  rfl

/-! Views too short to read (U1) -/

theorem Cursor.readOne_of_empty {v : Cursor} (hv : v.len = 0) :
    v.front = .error (.fault .outOfRange) ∧ v.back = .error (.fault .outOfRange) ∧
    v.takeOne = .error (.fault .outOfRange) ∧ v.dropOne = .error (.fault .outOfRange) := by
  have hfront : v.front = .error (.fault .outOfRange) := if_neg (by omega)
  have hback : v.back = .error (.fault .outOfRange) := if_neg (by omega)
  exact ⟨hfront, hback, by rw [Cursor.takeOne, hfront]; rfl, by rw [Cursor.dropOne, hback]; rfl⟩

theorem Cursor.readTwo_of_short {v : Cursor} (hv : v.len < 2) :
    v.takeTwo = .error (.fault .outOfRange) ∧ v.dropTwo = .error (.fault .outOfRange) :=
  ⟨if_neg (by omega), if_neg (by omega)⟩

theorem Cursor.equal_of_bytes {v w : Cursor} {xs ys : List Byte} (hv : v.bytes = .ok xs) (hw : w.bytes = .ok ys) :
    v.equal w = .ok (decide (xs = ys)) := by
  rw [Cursor.equal, hv, hw]
  rfl

/-- Settles O24: each clause is the lemma about its primitive, at the length the view's bytes give it. -/
theorem viewPrimitivesConsumeTheirBytes : Obligations.ViewPrimitivesConsumeTheirBytes := by
  intro v xs h
  have hlen := Cursor.len_of_bytes h
  refine ⟨hlen, fun n hn => ⟨Cursor.removePrefix_of_bytes h hn, Cursor.removePostfix_of_bytes h hn⟩,
    fun n hn => ⟨Cursor.removePrefix_past_view (by omega), Cursor.removePostfix_past_view (by omega)⟩,
    fun n => Cursor.resize_of_bytes h, fun n => Cursor.resize_inside_buffer, fun n => Cursor.resize_past_buffer,
    ?empty, fun hs => Cursor.readTwo_of_short (by omega), ?front, ?back, ?frontTwo, ?backTwo,
    fun w ys => Cursor.equal_of_bytes h⟩
  case empty =>
    rintro rfl
    exact Cursor.readOne_of_empty hlen
  case front =>
    rintro b rest rfl
    exact ⟨Cursor.front_of_bytes h, Cursor.takeOne_of_bytes h⟩
  case back =>
    rintro b rest rfl
    exact ⟨Cursor.back_of_bytes h, Cursor.dropOne_of_bytes h⟩
  case frontTwo =>
    rintro b₀ b₁ rest rfl
    exact Cursor.takeTwo_of_bytes h
  case backTwo =>
    rintro b₀ b₁ rest rfl
    exact Cursor.dropTwo_of_bytes h

end Sys2Proof.Machine

/-! PROOFS. The STATUS output (R36): the width of the count, the two fields, and O11 from these. -/

namespace Sys2Proof.Machine

/-- W is the least width a count of up to `cap` fits in (R36). -/
theorem countWidth_le_iff (cap w : Nat) : countWidth cap ≤ w ↔ cap < 2 ^ w := by
  by_cases h : cap = 0
  · simp [countWidth, h]
  · rw [countWidth, if_neg h, Nat.succ_le_iff, Nat.log2_lt h]

theorem lt_two_pow_countWidth (cap : Nat) : cap < 2 ^ countWidth cap := (countWidth_le_iff cap _).mp le_rfl

theorem RxState.code_inj {a b : RxState} : a.code = b.code ↔ a = b := by
  cases a <;> cases b <;> decide

/-- A count of at most RX_CAP fits its field, so STATUS loses no bit of it. -/
theorem State.status_toNat {s : State} (h : s.rxWr ≤ s.cfg.rxCap) :
    s.status.toNat = s.rxSt.code.toNat + 4 * s.rxWr := by
  have hcap := lt_two_pow_countWidth s.cfg.rxCap
  have hcode := s.rxSt.code.isLt
  rw [State.status, BitVec.toNat_ofNat, Nat.mod_eq_of_lt]
  rw [Nat.pow_add]
  omega

theorem State.status_rxState {s : State} (h : s.rxWr ≤ s.cfg.rxCap) : s.status.extractLsb' 0 2 = s.rxSt.code := by
  have hcode := s.rxSt.code.isLt
  apply BitVec.eq_of_toNat_eq
  rw [BitVec.extractLsb'_toNat, State.status_toNat h, Nat.shiftRight_zero]
  omega

theorem State.status_rxCount {s : State} (h : s.rxWr ≤ s.cfg.rxCap) :
    (s.status.extractLsb' 2 (countWidth s.cfg.rxCap)).toNat = s.rxWr := by
  have hcap := lt_two_pow_countWidth s.cfg.rxCap
  have hcode := s.rxSt.code.isLt
  have hshift : (s.rxSt.code.toNat + 4 * s.rxWr) >>> 2 = s.rxWr := by
    rw [Nat.shiftRight_eq_div_pow]
    omega
  rw [BitVec.extractLsb'_toNat, State.status_toNat h, hshift, Nat.mod_eq_of_lt (by omega)]

/-- Settles O11: the two field lemmas, the codes told apart by their injectivity, and the width by its least bound. -/
theorem statusShowsStateAndCount : Obligations.StatusShowsStateAndCount := by
  refine ⟨fun s h => ⟨?fields, State.status_rxCount h⟩,
    fun cap => ⟨lt_two_pow_countWidth cap, fun w => (countWidth_le_iff cap w).mpr⟩, fun cfg => rfl⟩
  case fields =>
    rw [State.status_rxState h]
    exact ⟨RxState.code_inj (b := .idle), RxState.code_inj (b := .frameOpen), RxState.code_inj (b := .frameReady),
      RxState.code_inj (b := .overflow)⟩

end Sys2Proof.Machine

/-! PROOFS. The function-unit commands (R39): their procedures never fault, and O17 from the one response each answers. -/

namespace Sys2Proof.Machine

/-! The procedures never fault -/

theorem frmDeserialize_ne_fault (d : List Byte) (f : Fault) : frmDeserialize d ≠ .error (.fault f) := by
  rcases frmDeserialize_cases d with h | h | h | ⟨fr, h, -⟩ <;> simp [h]

theorem frmExtract_ne_fault (xs : List Byte) (f : Fault) : frmExtract xs ≠ .error (.fault f) := by
  rcases frmExtract_cases xs with ⟨-, h⟩ | ⟨o, l, -, -, h⟩ <;> simp [h]

theorem regDecode_ne_fault (id : U16) (b : List Byte) (reg : RegSet) (f : Fault) :
    regDecode id b reg ≠ .error (.fault f) := by
  rcases regDecode_cases id b reg with h | h | ⟨m, h, -⟩ <;> simp [h]

/-! The response -/

/-- A procedure that does not fault is answered with one response, whatever the state. -/
theorem answer_map_eq_respond {α : Type} {res : Res α} (value : α → Option Value) (h : ∀ f, res ≠ .error (.fault f)) :
    ∃ r, ∀ s, answer s (res.map value) = .next (s.respond r) :=
  match res, h with
  | .ok v, _ => ⟨.success (value v), fun _ => rfl⟩
  | .error (.err c), _ => ⟨.failure c, fun _ => rfl⟩
  | .error (.fault f), h => absurd rfl (h f)

/-- The response of a function-unit command is fixed by the command and REG_RX; nothing else of the state is read or
written (R39). -/
theorem exec_functionUnit_eq_respond (i : Instr) (reg : RegSet) (h : isFunctionUnit i = true) :
    ∃ r, ∀ s : State, s.cfg.regRx = reg → exec i s = .next (s.respond r) := by
  cases i with
  | crc16 data => exact ⟨.success (some (.u16 (crc16 (seqBytes data)))), fun _ _ => rfl⟩
  | escEncode plain cap =>
    simp only [exec_escEncode]
    split <;> exact ⟨_, fun _ _ => rfl⟩
  | escDecode enc cap =>
    simp only [exec_escDecode]
    split <;> exact ⟨_, fun _ _ => rfl⟩
  | frmSerialize id payload cap =>
    simp only [exec_frmSerialize]
    split <;> exact ⟨_, fun _ _ => rfl⟩
  | frmDeserialize data =>
    obtain ⟨r, hr⟩ := answer_map_eq_respond (fun f => some (.frame f)) (frmDeserialize_ne_fault data.bytes)
    exact ⟨r, fun s _ => hr s⟩
  | frmExtract stream =>
    obtain ⟨r, hr⟩ := answer_map_eq_respond (fun (o, l, bytes) => some (.view o l ⟨bytes⟩))
      (frmExtract_ne_fault stream.bytes)
    exact ⟨r, fun s _ => hr s⟩
  | regDecodePayload id bytes =>
    obtain ⟨r, hr⟩ := answer_map_eq_respond (fun m => some (.msg m none)) (regDecode_ne_fault id bytes.bytes reg)
    exact ⟨r, fun s hs => by rw [exec_regDecodePayload, hs, hr s]⟩
  | regEncodePayload m => exact ⟨.success (some (.plain ⟨regEncode m⟩)), fun _ _ => rfl⟩
  | txSend | rxPut | rxReady | rxCollect | rxReset => cases h

/-- Settles O17: both states get the response that the command and the shared REG_RX fix. -/
theorem functionUnitsReadOnlyOperands : Obligations.FunctionUnitsReadOnlyOperands := by
  intro i s t hi hreg
  obtain ⟨r, hr⟩ := exec_functionUnit_eq_respond i t.cfg.regRx hi
  exact ⟨r, hr s hreg, hr t rfl⟩

end Sys2Proof.Machine

/-! PROOFS. The error codes' bytes (R110): O53. -/

namespace Sys2Proof.Machine

theorem errCode_ofCode_eq_none_iff (b : Byte) : ErrCode.ofCode b = none ↔ 9 ≤ b.toNat := by
  unfold ErrCode.ofCode
  split
  case h_10 => grind
  all_goals simp [*]

/-- A byte names only the code whose value it is. -/
theorem errCode_code_of_ofCode {b : Byte} {c : ErrCode} (h : ErrCode.ofCode b = some c) : c.code = b := by
  apply BitVec.eq_of_toNat_eq
  unfold ErrCode.ofCode at h
  split at h <;> cases h <;> exact Eq.symm ‹_›

theorem errCode_ofCode_eq_some_iff (c : ErrCode) (b : Byte) : ErrCode.ofCode b = some c ↔ c.code = b :=
  ⟨errCode_code_of_ofCode, fun h => h ▸ errCode_ofCode_code c⟩

/-- Settles O53: the nine values by evaluation, and the inverse `ErrCode.ofCode` by its two lemmas. -/
theorem errorCodesAreTheBytesOfTheTable : Obligations.ErrorCodesAreTheBytesOfTheTable := by
  exact ⟨rfl, rfl, rfl, rfl, rfl, rfl, rfl, rfl, rfl, errCode_ofCode_eq_some_iff, errCode_ofCode_eq_none_iff,
    fun _ => rfl, Response.errByte_failure⟩

end Sys2Proof.Machine

/-! PROOFS. Accepting a command (R95, R97): the operand lanes, the commands that decode within OPND_MAX, and O8. -/

namespace Sys2Proof.Machine

/-! The operand lanes -/

theorem except_map_eq_ok_iff {ε α β : Type} (x : Except ε α) (f : α → β) (b : β) :
    x.map f = .ok b ↔ ∃ a, x = .ok a ∧ f a = b := by
  cases x <;> simp [Except.map]

theorem except_bind_eq_ok_iff {ε α β : Type} (x : Except ε α) (f : α → Except ε β) (b : β) :
    x.bind f = .ok b ↔ ∃ a, x = .ok a ∧ f a = .ok b := by
  cases x <;> simp [Except.bind]

@[simp] theorem needSeq_eq_ok_iff (r : OperandRecord) (x : ByteSeq) : r.needSeq = .ok x ↔ r.seq = some x := by
  unfold OperandRecord.needSeq
  split <;> simp [*]

@[simp] theorem needPlain_eq_ok_iff (r : OperandRecord) (p : Plain) :
    r.needPlain = .ok p ↔ r.seq = some (.plain p) := by
  unfold OperandRecord.needPlain
  split <;> simp [*]

@[simp] theorem needEncoded_eq_ok_iff (r : OperandRecord) (e : Encoded) :
    r.needEncoded = .ok e ↔ r.seq = some (.encoded e) := by
  unfold OperandRecord.needEncoded
  split <;> simp [*]

@[simp] theorem needId_eq_ok_iff (r : OperandRecord) (v : U16) : r.needId = .ok v ↔ r.id = some v := by
  unfold OperandRecord.needId
  split <;> simp [*]

@[simp] theorem needCap_eq_ok_iff (r : OperandRecord) (v : Nat) : r.needCap = .ok v ↔ r.cap = some v := by
  unfold OperandRecord.needCap
  split <;> simp [*]

@[simp] theorem needMsg_eq_ok_iff (r : OperandRecord) (m : Msg) : r.needMsg = .ok m ↔ r.msg = some m := by
  unfold OperandRecord.needMsg
  split <;> simp [*]

/-! The operands within OPND_MAX -/

/-- A length within OPND_MAX, where that is bounded (R7). -/
def FitsMax (opndMax : Option Nat) (n : Nat) : Prop := ∀ k, opndMax = some k → n ≤ k

@[simp] theorem withinMax_iff (opndMax : Option Nat) (n : Nat) : withinMax opndMax n = true ↔ FitsMax opndMax n := by
  cases opndMax <;> simp [withinMax, FitsMax]

@[simp] theorem fitsMax_zero (opndMax : Option Nat) : FitsMax opndMax 0 := fun _ _ => Nat.zero_le _

/-- The record holds a Plain sequence within OPND_MAX. -/
def PlainFits (opndMax : Option Nat) (r : OperandRecord) : Prop :=
  ∃ p : Plain, r.seq = some (.plain p) ∧ FitsMax opndMax p.bytes.length

/-- The record holds an Encoded sequence within OPND_MAX. -/
def EncodedFits (opndMax : Option Nat) (r : OperandRecord) : Prop :=
  ∃ e : Encoded, r.seq = some (.encoded e) ∧ FitsMax opndMax e.bytes.length

/-- A sequence of either kind is a Plain or an Encoded one (R13). -/
theorem exists_seq_fits_iff (opndMax : Option Nat) (r : OperandRecord) :
    (∃ x : ByteSeq, r.seq = some x ∧ FitsMax opndMax x.length) ↔ PlainFits opndMax r ∨ EncodedFits opndMax r := by
  constructor
  · rintro ⟨p | e, h⟩
    exacts [.inl ⟨p, h⟩, .inr ⟨e, h⟩]
  · rintro (⟨p, h⟩ | ⟨e, h⟩)
    exacts [⟨.plain p, h⟩, ⟨.encoded e, h⟩]

/-- The record holds the operands R95 lists for the opcode, each of its kind and within OPND_MAX. -/
def OperandsFit (opndMax : Option Nat) (op : Nat) (r : OperandRecord) : Prop :=
  (op = 0x1 ∧ (PlainFits opndMax r ∨ EncodedFits opndMax r)) ∨
  (op = 0x2 ∧ PlainFits opndMax r ∧ r.cap.isSome) ∨
  (op = 0x3 ∧ EncodedFits opndMax r ∧ r.cap.isSome) ∨
  (op = 0x4 ∧ r.id.isSome ∧ PlainFits opndMax r ∧ r.cap.isSome) ∨
  (op = 0x5 ∧ PlainFits opndMax r) ∨
  (op = 0x6 ∧ EncodedFits opndMax r) ∨
  (op = 0x7 ∧ r.id.isSome ∧ PlainFits opndMax r) ∨
  (op = 0x8 ∧ r.msg.isSome) ∨
  (op = 0x9 ∧ r.msg.isSome) ∨
  (0xA ≤ op ∧ op ≤ 0xD)

/-- The operands of an opcode decode within OPND_MAX exactly where they are the ones R95 lists for it. -/
theorem decodeOperands_wellFormed_iff (opndMax : Option Nat) (op : Nat) (imm : Byte) (r : OperandRecord) :
    (∃ i, decodeOperands op imm r = .ok i ∧ i.wellFormed opndMax = true) ↔ OperandsFit opndMax op r := by
  unfold decodeOperands
  split
  case h_14 =>
    have hfit : ¬ OperandsFit opndMax op r := by
      unfold OperandsFit
      grind
    simp [hfit]
  case h_1 =>
    simpa [OperandsFit, except_map_eq_ok_iff, Instr.wellFormed, Instr.seqOperandLength] using
      exists_seq_fits_iff opndMax r
  all_goals
    simp [OperandsFit, PlainFits, EncodedFits, except_map_eq_ok_iff, except_bind_eq_ok_iff, Instr.wellFormed,
      Instr.seqOperandLength, Option.isSome_iff_exists]
  case h_2 | h_3 | h_4 => grind

/-! The accepted commands -/

/-- The commands R97 refuses, from the fields of the word and the lanes of the record. -/
def RefusedByR97 (opndMax : Option Nat) (c : Command) : Prop :=
  (opField c.word).toNat = 0x0 ∨ (opField c.word).toNat = 0xE ∨ (opField c.word).toNat = 0xF ∨ rsvField c.word ≠ 0 ∨
  (imm8Field c.word ≠ 0 ∧ (opField c.word).toNat ≠ 0xA) ∨ ¬ OperandsFit opndMax (opField c.word).toNat c.opnds

/-- The decoder checks the reserved opcodes, RSV and IMM8 in turn, then the operands (R92, R97). -/
theorem decode_eq_ok_iff (c : Command) (i : Instr) :
    decode c = .ok i ↔
      ¬ ((opField c.word).toNat = 0x0 ∨ (opField c.word).toNat = 0xE ∨ (opField c.word).toNat = 0xF) ∧
      rsvField c.word = 0 ∧ ¬ (imm8Field c.word ≠ 0 ∧ (opField c.word).toNat ≠ 0xA) ∧
      decodeOperands (opField c.word).toNat (imm8Field c.word) c.opnds = .ok i := by
  simp only [decode]
  split_ifs with hop hrsv himm
  · exact iff_of_false nofun fun ⟨h, _⟩ => h hop
  · exact iff_of_false nofun fun ⟨_, h, _⟩ => hrsv h
  · exact iff_of_false nofun fun ⟨_, _, h, _⟩ => h himm.symm
  · exact ⟨fun h => ⟨hop, not_not.mp hrsv, fun h' => himm h'.symm, h⟩, fun ⟨_, _, _, h⟩ => h⟩

/-- Exactly the commands that R97 does not list are accepted. -/
theorem exists_accept_iff (cfg : Config) (c : Command) :
    (∃ i, accept cfg c = .ok i) ↔ ¬ RefusedByR97 cfg.opndMax c := by
  simp only [accept_ok_iff, decode_eq_ok_iff, and_assoc, exists_and_left, decodeOperands_wellFormed_iff, RefusedByR97,
    not_or, ne_eq, not_not]

/-! A step on a command -/

theorem step_of_accept_ok {s : State} {c : Command} {rest : List PortInput} {i : Instr}
    (hs : s.inputs = .command c :: rest) (h : accept s.cfg c = .ok i) : step s = exec i (s.setInputs rest) := by
  simp only [step, hs, h]

theorem step_of_accept_error {s : State} {c : Command} {rest : List PortInput} {why : Reject}
    (hs : s.inputs = .command c :: rest) (h : accept s.cfg c = .error why) : step s = .refused (.rejected why) := by
  simp only [step, hs, h]

/-- A refused command leaves the port with {accepted = 0}, and nothing else changes (R97). -/
theorem serve_of_accept_error {s : State} {c : Command} {rest : List PortInput} {why : Reject}
    (hs : s.inputs = .command c :: rest) (h : accept s.cfg c = .error why) :
    serve s = .next { s with inputs := rest, resp := refusedResp } := by
  simp only [serve, step_of_accept_error hs h, refusedNext, hs]
  rfl

/-- Settles O8: `accept` answers a command exactly where none of R97's items holds, and the step and the served port
follow what it answers. -/
theorem refusedExactlyWhenReservedOrOperandsUnfit : Obligations.RefusedExactlyWhenReservedOrOperandsUnfit := by
  intro s w r rest hs op fitsMax plainFits encodedFits operandsFit refusedByR97
  have haccept : (∃ i, accept s.cfg { word := w, opnds := r } = .ok i) ↔ ¬ refusedByR97 := exists_accept_iff _ _
  constructor
  · intro hrefused
    cases h : accept s.cfg { word := w, opnds := r } with
    | ok i => exact absurd hrefused (haccept.mp ⟨i, h⟩)
    | error why => exact ⟨⟨why, step_of_accept_error hs h⟩, serve_of_accept_error hs h⟩
  · intro hok
    obtain ⟨i, h⟩ := haccept.mpr hok
    exact ⟨i, ((accept_ok_iff _ _ _).mp h).1, step_of_accept_ok hs h⟩

end Sys2Proof.Machine

/-! PROOFS. CRC16 (R141, R142): a byte step of either form is the shifted CRC and one table entry, the tables agree;
O26 and O25. -/

namespace Sys2Proof.Machine

/-! The division is linear over XOR -/

theorem crcBit_xor (c d : U16) : crcBit (c ^^^ d) = crcBit c ^^^ crcBit d := by
  simp only [crcBit, BitVec.shiftLeft_xor_distrib, BitVec.getLsbD_xor]
  cases c.getLsbD 15 <;> cases d.getLsbD 15 <;> grind

theorem crcBit_iterate_xor (n : Nat) (c d : U16) : crcBit^[n] (c ^^^ d) = crcBit^[n] c ^^^ crcBit^[n] d := by
  induction n generalizing c d with
  | zero => rfl
  | succ n ih => simp only [Function.iterate_succ_apply, crcBit_xor, ih]

/-- No bit of a low byte reaches bit 15 within eight shifts, so none is reduced. -/
theorem crcBit_iterate_setWidth (b : Byte) {n : Nat} (hn : n ≤ 8) :
    crcBit^[n] (b.setWidth 16) = b.setWidth 16 <<< n := by
  induction n with
  | zero => exact (BitVec.shiftLeft_zero _).symm
  | succ n ih =>
    have hhigh : b.getLsbD (15 - n) = false := BitVec.getLsbD_of_ge b _ (by omega)
    have hclear : (b.setWidth 16 <<< n).getLsbD 15 = false := by simp [hhigh]
    rw [Function.iterate_succ_apply', ih (by omega), crcBit, hclear, BitVec.shiftLeft_add]
    rfl

/-! The table form of a byte step -/

theorem crcStep_eq_table (c : U16) (b : Byte) : crcStep c b = c <<< 8 ^^^ crcStep 0#16 (hiByte c ^^^ b) := by
  simp [crcStep, hiByte, BitVec.xor_assoc]

/-- The byte enters at the high byte of the CRC; the low byte stands apart. -/
theorem xor_shifted_byte (c : U16) (b : Byte) :
    c ^^^ b.setWidth 16 <<< 8 = (loByte c).setWidth 16 ^^^ (hiByte c ^^^ b).setWidth 16 <<< 8 := by
  ext i hi
  by_cases h : i < 8
  · simp [loByte, h, BitVec.getLsbD_eq_getElem hi]
  · simp [loByte, hiByte, h, show i - 8 < 8 by omega, show 8 + (i - 8) = i by omega, BitVec.getLsbD_eq_getElem hi]

theorem loByte_shiftLeft (c : U16) : (loByte c).setWidth 16 <<< 8 = c <<< 8 := by
  ext i hi
  have hlow : i - 8 < 8 := by omega
  simp [loByte, hlow, BitVec.getLsbD_eq_getElem (show i - 8 < 16 by omega)]

theorem crcByteBitwise_eq_table (c : U16) (b : Byte) :
    crcByteBitwise c b = c <<< 8 ^^^ crcByteBitwise 0#16 (hiByte c ^^^ b) := by
  simp only [crcByteBitwise, BitVec.zero_xor]
  rw [xor_shifted_byte, crcBit_iterate_xor, crcBit_iterate_setWidth _ le_rfl, loByte_shiftLeft]

/-- The 256 table entries of the two forms. -/
theorem crcByteBitwise_zero_eq_crcStep_zero : ∀ x : Byte, crcByteBitwise 0#16 x = crcStep 0#16 x := by
  decide

theorem crcByteBitwise_eq_crcStep (c : U16) (b : Byte) : crcByteBitwise c b = crcStep c b := by
  rw [crcByteBitwise_eq_table, crcStep_eq_table, crcByteBitwise_zero_eq_crcStep_zero]

/-- Settles O26: the two folds take the same step on every byte. -/
theorem crc16EqualsPerBitDivision : Obligations.Crc16EqualsPerBitDivision := by
  intro xs
  exact List.foldl_ext _ _ crcInit fun c b _ => (crcByteBitwise_eq_crcStep c b).symm

/-! The command -/

theorem crc16_append_singleton (xs : List Byte) (b : Byte) : crc16 (xs ++ [b]) = crcStep (crc16 xs) b :=
  List.foldl_concat ..

theorem exec_crc16 (data : ByteSeq) (s : State) :
    exec (.crc16 data) s = .next (s.respond (.success (some (.u16 (crc16 (seqBytes data)))))) := rfl

/-- Settles O25: the recurrence is one `crcStep`, and the command answers the same for both kinds. -/
theorem crc16FollowsTheRecurrence : Obligations.Crc16FollowsTheRecurrence :=
  ⟨rfl, crc16_append_singleton, fun xs s => ⟨exec_crc16 (.plain ⟨xs⟩) s, exec_crc16 (.encoded ⟨xs⟩) s⟩⟩

end Sys2Proof.Machine

/-! PROOFS. The escape codec (R161, R171): each byte's encoding in the spec's bytes, the decoder as a fold over the output
and the flag; O28 and O29. -/

namespace Sys2Proof.Machine

/-- R161's encoding of a byte, with the marker bytes written out. -/
theorem escByte_eq_ite (b : Byte) :
    escByte b = if b = 0xFD ∨ b = 0xFE ∨ b = 0xFC then [0xFC, b - 0xFC] else [b] :=
  if_congr (isReserved_iff b) rfl rfl

/-- Settles O28: the encoder's loop maps `escByte` over the plaintext. -/
theorem escEncodeEscapesEachReservedByte : Obligations.EscEncodeEscapesEachReservedByte := by
  intro plain cap s
  rw [exec_escEncode, escBytes_eq_flatMap, funext escByte_eq_ite]
  rfl

/-! The decoder's loop -/

/-- One pass of R171's loop over (out, pend), with the flag as the byte the spec multiplies by. -/
def unescStep (acc : List Byte × Byte) (b : Byte) : List Byte × Byte :=
  if b = escapeByte then (acc.1, 1) else (acc.1 ++ [b + escapeByte * acc.2], 0)

theorem unescStep_escape (out : List Byte) (flag : Byte) : unescStep (out, flag) escapeByte = (out, 1) := if_pos rfl

theorem unescStep_other {b : Byte} (h : b ≠ escapeByte) (out : List Byte) (pend : Bool) :
    unescStep (out, if pend then 1 else 0) b = (out ++ [if pend then b + escapeByte else b], 0) := by
  rw [unescStep, if_neg h]
  cases pend <;> simp

/-- From any output and either flag, the loop appends what `unescBytes` answers. -/
theorem foldl_unescStep_fst (xs out : List Byte) (pend : Bool) :
    (xs.foldl unescStep (out, if pend then 1 else 0)).1 = out ++ unescBytes pend xs := by
  induction xs generalizing out pend with
  | nil => simp
  | cons b xs ih =>
    rw [List.foldl_cons]
    by_cases h : b = escapeByte
    · subst h
      rw [unescStep_escape, unescBytes_escape]
      exact ih out true
    · rw [unescStep_other h, unescBytes_other pend b xs h, List.append_cons out _ (unescBytes false xs)]
      exact ih _ false

/-- Settles O29: the loop from an empty output and a clear flag answers what ESC_DECODE answers. -/
theorem escDecodeRunsThePendingFlag : Obligations.EscDecodeRunsThePendingFlag := by
  intro enc cap s
  have hloop : (enc.bytes.foldl unescStep ([], 0)).1 = unescBytes false enc.bytes :=
    foldl_unescStep_fst enc.bytes [] false
  rw [exec_escDecode, ← hloop]
  rfl

end Sys2Proof.Machine

/-! PROOFS. The frame codec (R191 to R193, R201 to R204, R211 to R213): each command's response from what its procedure
answers; O32, O33 and O36. -/

namespace Sys2Proof.Machine

/-! FRM_SERIALIZE and FRM_DESERIALIZE -/

/-- Settles O32: `frameBody`, `frameCrc` and `frameTrailer` are the bytes the statement writes out. -/
theorem frmSerializeBuildsTheFrame : Obligations.FrmSerializeBuildsTheFrame :=
  exec_frmSerialize

theorem exec_frmDeserialize_short {d : List Byte} (h : d.length < 6) (s : State) :
    exec (.frmDeserialize ⟨d⟩) s = .next (s.respond (.failure .notEnoughData)) := by
  rw [exec_frmDeserialize, frmDeserialize_short d h]
  rfl

/-- The checks of R201 on six bytes or more, each with its response. -/
theorem exec_frmDeserialize_form (first idLo idHi crcLo crcHi last : Byte) (p : List Byte) (s : State) :
    exec (.frmDeserialize ⟨[first, idLo, idHi] ++ p ++ [crcLo, crcHi, last]⟩) s =
      if last ≠ endByte then .next (s.respond (.failure .invalidMagic))
      else if first ≠ startByte then .next (s.respond (.failure .invalidMagic))
      else if crc16 ([first, idLo, idHi] ++ p) ≠ le16 crcLo crcHi then .next (s.respond (.failure .invalidCrc))
      else .next (s.respond (.success (some (.frame
        { msgId := le16 idLo idHi, payload := ⟨p⟩, crc := le16 crcLo crcHi })))) := by
  rw [exec_frmDeserialize, frmDeserialize_form]
  split_ifs <;> rfl

/-- Settles O33: by length, then by the form that six bytes or more have. -/
theorem frmDeserializeChecksInOrder : Obligations.FrmDeserializeChecksInOrder := by
  refine fun s => ⟨fun d h => exec_frmDeserialize_short h s, exists_frame_form, ?form⟩
  case form =>
    intro first idLo idHi crcLo crcHi last p
    rw [exec_frmDeserialize_form, le16_eq_append, le16_eq_append]
    rfl

/-! FRM_EXTRACT -/

theorem exec_frmExtract_frame {noise dropped content : List Byte} (rest : List Byte) (hn : startByte ∉ noise)
    (hd : endByte ∉ dropped) (hs : startByte ∉ content) (he : endByte ∉ content) (s : State) :
    exec (.frmExtract ⟨noise ++ dropped ++ ([startByte] ++ content ++ [endByte]) ++ rest⟩) s =
      .next (s.respond (.success (some (.view (noise.length + dropped.length) (content.length + 2)
        ⟨[startByte] ++ content ++ [endByte]⟩)))) := by
  have hform : noise ++ dropped ++ ([startByte] ++ content ++ [endByte]) ++ rest =
      noise ++ (dropped ++ startByte :: (content ++ endByte :: rest)) := by simp
  rw [exec_frmExtract, hform, frmExtract_frame noise dropped content rest hn hd hs he]
  rfl

theorem frmExtract_incomplete {noise dropped : List Byte} (hn : startByte ∉ noise) (hd : endByte ∉ dropped) :
    frmExtract (noise ++ dropped) = .error (.err .incomplete) := by
  rcases frmExtract_cases (noise ++ dropped) with ⟨-, h⟩ | ⟨o, l, hscan, -, -⟩
  · exact h
  · rw [frmScan_incomplete noise dropped hn hd] at hscan
    cases hscan

theorem exec_frmExtract_incomplete {noise dropped : List Byte} (hn : startByte ∉ noise) (hd : endByte ∉ dropped)
    (s : State) : exec (.frmExtract ⟨noise ++ dropped⟩) s = .next (s.respond (.failure .incomplete)) := by
  rw [exec_frmExtract, frmExtract_incomplete hn hd]
  rfl

/-- Every stream splits at its first START, and what follows at its first END and the last START before that (R211). -/
theorem exists_stream_form (xs : List Byte) :
    ∃ noise dropped : List Byte, startByte ∉ noise ∧ endByte ∉ dropped ∧
      (xs = noise ++ dropped ∨ ∃ content rest : List Byte, startByte ∉ content ∧ endByte ∉ content ∧
        xs = noise ++ dropped ++ ([startByte] ++ content ++ [endByte]) ++ rest) := by
  by_cases hstart : startByte ∈ xs
  case neg => exact ⟨xs, [], hstart, List.not_mem_nil, .inl (List.append_nil xs).symm⟩
  case pos =>
    obtain ⟨noise, ys, rfl, hn⟩ := List.eq_append_cons_of_mem hstart
    have hne : endByte ≠ startByte := by decide
    by_cases hend : endByte ∈ ys
    case neg => exact ⟨noise, startByte :: ys, hn, List.not_mem_cons_of_ne_of_not_mem hne hend, .inl rfl⟩
    case pos =>
      obtain ⟨mid, rest, rfl, hm⟩ := List.eq_append_cons_of_mem hend
      obtain ⟨dropped, content, hlast, hs⟩ := exists_last_start (startByte :: mid) List.mem_cons_self
      have hno : endByte ∉ dropped ++ startByte :: content := hlast ▸ List.not_mem_cons_of_ne_of_not_mem hne hm
      simp only [List.mem_append, List.mem_cons, not_or] at hno
      obtain ⟨hd, -, he⟩ := hno
      refine ⟨noise, dropped, hn, hd, .inr ⟨content, rest, hs, he, ?_⟩⟩
      rw [← List.cons_append, hlast]
      simp

theorem forall_mem_ne_markers {xs : List Byte} :
    (∀ b ∈ xs, b ≠ 0xFD ∧ b ≠ 0xFE) ↔ startByte ∉ xs ∧ endByte ∉ xs := by
  rw [← List.forall_mem_ne', ← List.forall_mem_ne', ← forall₂_and]
  rfl

/-- Settles O36: the two forms of a stream, each with its response, and no third. -/
theorem frmExtractTakesTheLastStart : Obligations.FrmExtractTakesTheLastStart := by
  refine ⟨?frame, ?incomplete, ?forms⟩
  case frame =>
    intro noise dropped content rest s hn hd hc
    obtain ⟨hs, he⟩ := forall_mem_ne_markers.mp hc
    exact exec_frmExtract_frame rest (List.forall_mem_ne'.mp hn) (List.forall_mem_ne'.mp hd) hs he s
  case incomplete =>
    intro noise dropped s hn hd
    exact exec_frmExtract_incomplete (List.forall_mem_ne'.mp hn) (List.forall_mem_ne'.mp hd) s
  case forms =>
    intro xs
    obtain ⟨noise, dropped, hn, hd, h⟩ := exists_stream_form xs
    refine ⟨noise, dropped, List.forall_mem_ne'.mpr hn, List.forall_mem_ne'.mpr hd, h.imp_right ?_⟩
    rintro ⟨content, rest, hs, he, hxs⟩
    exact ⟨content, rest, forall_mem_ne_markers.mpr ⟨hs, he⟩, hxs⟩

end Sys2Proof.Machine

/-! PROOFS. The typed-message registry (R231 to R236, R246, R247): the id is checked before the length, each registered
id decodes its own layout; O37 and O38. -/

namespace Sys2Proof.Machine

/-! Decoding a payload -/

theorem registered_of_four_lt {id : U16} (h : 4 < id.toNat) (reg : RegSet) : registered reg id = false := by
  unfold registered
  split
  case h_6 => rfl
  all_goals omega

/-- The id is checked before the length (R232). -/
theorem regDecode_unregistered {id : U16} {reg : RegSet} (h : registered reg id = false) (b : List Byte) :
    regDecode id b reg = raise .unknownMsgId := if_pos (by simp [h])

/-- The payload size of each fixed-layout variant (R236); SpectrumData has none. -/
def fixedSize (id : U16) : Option Nat :=
  match id.toNat with
  | 0 => some 1
  | 1 => some 3
  | 2 => some 8
  | 3 => some 4
  | _ => none

theorem regDecode_misfit {id : U16} {reg : RegSet} (hr : registered reg id = true) {n : Nat}
    (hn : fixedSize id = some n) {b : List Byte} (hb : b.length ≠ n) :
    regDecode id b reg = raise .incorrectAlignment := by
  rw [regDecode, if_neg (not_not_intro hr)]
  unfold fixedSize at hn
  split at hn <;> cases hn
  all_goals
    rename_i hid
    rw [hid]
    exact if_pos hb

theorem regDecode_heartbeat {reg : RegSet} (h : reg.heartbeat = true) (b0 : Byte) :
    regDecode 0 [b0] reg = .ok (.heartbeat b0) := if_neg (not_not_intro h)

theorem regDecode_ack {reg : RegSet} (h : reg.ack = true) (b0 b1 b2 : Byte) :
    regDecode 1 [b0, b1, b2] reg = .ok (.ack (b1 ++ b0) b2) := by
  rw [← le16_eq_append]
  exact if_neg (not_not_intro h)

theorem regDecode_setFrequency {reg : RegSet} (h : reg.setFrequency = true) (b0 b1 b2 b3 b4 b5 b6 b7 : Byte) :
    regDecode 2 [b0, b1, b2, b3, b4, b5, b6, b7] reg =
      .ok (.setFrequency (b3 ++ b2 ++ b1 ++ b0) (b7 ++ b6 ++ b5 ++ b4)) := by
  rw [← le32_eq_append, ← le32_eq_append]
  exact if_neg (not_not_intro h)

theorem regDecode_startStreaming {reg : RegSet} (h : reg.startStreaming = true) (b0 b1 b2 b3 : Byte) :
    regDecode 3 [b0, b1, b2, b3] reg = .ok (.startStreaming (b3 ++ b2 ++ b1 ++ b0)) := by
  rw [← le32_eq_append]
  exact if_neg (not_not_intro h)

theorem regDecode_spectrumData {reg : RegSet} (h : reg.spectrumData = true) (b : List Byte) :
    regDecode 4 b reg = .ok (.spectrumData b) := if_neg (not_not_intro h)

theorem exec_regDecodePayload_of_raise {id : U16} {bytes : Plain} {s : State} {c : ErrCode}
    (h : regDecode id bytes.bytes s.cfg.regRx = raise c) :
    exec (.regDecodePayload id bytes) s = .next (s.respond (.failure c)) := by
  rw [exec_regDecodePayload, h]
  rfl

theorem exec_regDecodePayload_of_ok {id : U16} {bytes : Plain} {s : State} {m : Msg}
    (h : regDecode id bytes.bytes s.cfg.regRx = .ok m) :
    exec (.regDecodePayload id bytes) s = .next (s.respond (.success (some (.msg m none)))) := by
  rw [exec_regDecodePayload, h]
  rfl

/-- Settles O37: ids that name no message, then each id unregistered, with the wrong size, with its own layout. -/
theorem regDecodeDispatchesOnTheId : Obligations.RegDecodeDispatchesOnTheId := by
  rintro id ⟨b⟩ s
  have unknown (h : registered s.cfg.regRx id = false) :
      exec (.regDecodePayload id ⟨b⟩) s = .next (s.respond (.failure .unknownMsgId)) :=
    exec_regDecodePayload_of_raise (regDecode_unregistered h b)
  have misfit (n : Nat) (hn : fixedSize id = some n) (hr : registered s.cfg.regRx id = true) (hb : b.length ≠ n) :
      exec (.regDecodePayload id ⟨b⟩) s = .next (s.respond (.failure .incorrectAlignment)) :=
    exec_regDecodePayload_of_raise (regDecode_misfit hr hn hb)
  refine ⟨fun h => unknown (registered_of_four_lt h _),
    ?_, ?_, ?heartbeat, ?_, ?_, ?ack, ?_, ?_, ?setFrequency, ?_, ?_, ?startStreaming, ?_, ?spectrumData⟩
  case heartbeat =>
    rintro rfl hr b0 rfl
    exact exec_regDecodePayload_of_ok (regDecode_heartbeat hr b0)
  case ack =>
    rintro rfl hr b0 b1 b2 rfl
    exact exec_regDecodePayload_of_ok (regDecode_ack hr b0 b1 b2)
  case setFrequency =>
    rintro rfl hr b0 b1 b2 b3 b4 b5 b6 b7 rfl
    exact exec_regDecodePayload_of_ok (regDecode_setFrequency hr b0 b1 b2 b3 b4 b5 b6 b7)
  case startStreaming =>
    rintro rfl hr b0 b1 b2 b3 rfl
    exact exec_regDecodePayload_of_ok (regDecode_startStreaming hr b0 b1 b2 b3)
  case spectrumData =>
    rintro rfl hr
    exact exec_regDecodePayload_of_ok (regDecode_spectrumData hr b)
  all_goals rintro rfl
  exacts [unknown, misfit 1 rfl, unknown, misfit 3 rfl, unknown, misfit 8 rfl, unknown, misfit 4 rfl, unknown]

/-! Encoding a message -/

theorem exec_regEncodePayload (m : Msg) (s : State) :
    exec (.regEncodePayload m) s = .next (s.respond (.success (some (.plain ⟨regEncode m⟩)))) := rfl

/-- Settles O38: `regEncode` writes each variant's fields in order, low byte first. -/
theorem regEncodePacksTheFields : Obligations.RegEncodePacksTheFields := by
  intro m s
  rw [exec_regEncodePayload]
  cases m <;> rfl

end Sys2Proof.Machine

/-! PROOFS. A TX_SEND that fails (R262, R266, R267): the refusing check, and what it leaves unchanged; O41. -/

namespace Sys2Proof.Machine

/-- The frame of a failed TX_SEND (R262): only SCR, ENCB and the response are written. -/
theorem txFailed_respond (s : State) (q : Response) :
    (txFailed s).respond q = { s with scr := [], encb := [], resp := some q } := rfl

/-- The id is checked before the capacities (R267). -/
theorem exec_txSend_unregistered {m : Msg} {s : State} (h : registered s.cfg.regTx (msgId m) = false) :
    exec (.txSend m) s = .next ((txFailed s).respond (.failure .unknownMsgId)) := by
  rw [exec_txSend, if_pos h]

theorem exec_txSend_too_small {m : Msg} {s : State} (hr : registered s.cfg.regTx (msgId m) = true)
    (hcap : s.cfg.txCap < (regEncode m).length + 6 ∨ s.cfg.txEncCap < 2 * ((regEncode m).length + 2)) :
    exec (.txSend m) s = .next ((txFailed s).respond (.failure .notEnoughData)) := by
  rw [exec_txSend, if_neg (by simp [hr]), if_pos hcap]

/-- Settles O41: each failing check answers from `txFailed`, whose SCR and ENCB are the two left open. -/
theorem failedTxSendEmitsNothing : Obligations.FailedTxSendEmitsNothing := by
  intro m s
  constructor
  · intro hr
    exact ⟨[], [], by rw [exec_txSend_unregistered hr, txFailed_respond]; rfl⟩
  · intro hr hcap
    exact ⟨[], [], by rw [exec_txSend_too_small hr hcap, txFailed_respond]; rfl⟩

end Sys2Proof.Machine

/-! PROOFS. The Receiver's commands (R281, R282, R288, R295 to R297): rx_st after a stored byte, where the pipeline ends
early, RX_COLLECT by the state it finds; O43, O45, O46 and O48. -/

namespace Sys2Proof.Machine

/-! RX_PUT -/

/-- The two transitions of R283 in the bytes R101 gives the markers; every other pair keeps rx_st. -/
theorem rxNext_eq_ite (st : RxState) (b : Byte) :
    rxNext st b =
      if st = .idle ∧ b = 0xFD then .frameOpen
      else if st = .frameOpen ∧ b = 0xFE then .frameReady else st := by
  cases st with
  | idle | frameOpen =>
    simp only [reduceCtorEq, true_and, false_and, if_false]
    rfl
  | frameReady | overflow => rfl

/-- Settles O43: the three cases of `exec_rxPut`; the byte stored at rx_wr is the only one of ACC that is written. -/
theorem rxPutStoresThenTransitions : Obligations.RxPutStoresThenTransitions := by
  intro b s hwr
  rw [exec_rxPut b s hwr]
  refine ⟨fun hst => ?dropped, fun hst hfull => ?full, fun hst hroom => ?stored⟩
  case dropped => rw [if_pos hst]; rfl
  case full => rw [if_neg hst, if_pos hfull]; rfl
  case stored =>
    refine ⟨s.acc.set s.rxWr b, ?_, Memory.get_set_self _ _ _, fun a ha => Memory.get_set_of_ne _ b ha⟩
    rw [if_neg hst, if_neg hroom.ne, rxNext_eq_ite]
    rfl

/-! RX_READY -/

/-- No lane of the record is looked at (log 10). -/
theorem decode_rxReady_word (r : OperandRecord) : decode { word := 0xB000, opnds := r } = .ok .rxReady := by
  have hop : (opField 0xB000).toNat = 0xB := rfl
  have hrsv : rsvField 0xB000 = 0 := rfl
  have himm : imm8Field 0xB000 = 0 := rfl
  rw [decode_eq_ok_iff, hop, hrsv, himm]
  exact ⟨by decide, rfl, by decide, rfl⟩

/-- Settles O45: no lane of the record is looked at (log 10), and the answer is the ready flag (R288). -/
theorem rxReadyAnswersTheReadyFlag : Obligations.RxReadyAnswersTheReadyFlag := by
  refine ⟨decode_rxReady_word, fun s => ⟨fun hst => ?_, fun hst => ?_⟩⟩
  · have hready : s.ready = true := decide_eq_true hst
    rw [exec_rxReady, hready]
    rfl
  · have hready : s.ready = false := decide_eq_false hst
    rw [exec_rxReady, hready]
    rfl

/-! RX_COLLECT without a frame -/

theorem execSeq_cons_of_next {i : Instr} {s t : State} (h : exec i s = .next t) (is : List Instr) :
    execSeq (i :: is) s = execSeq is t := by
  simp only [execSeq, h]

theorem exec_rxCollect_overflow {s : State} (h : s.rxSt = .overflow) :
    exec .rxCollect s = .next (((s.setSlice none).setRx .idle 0).respond (.failure .outOfMemory)) := by
  simp only [exec_rxCollect, h]

theorem exec_rxCollect_not_ready {s : State} (h : s.rxSt = .idle ∨ s.rxSt = .frameOpen) :
    exec .rxCollect s = .next ((s.setSlice none).respond (.failure .messageNotReady)) := by
  rcases h with h | h <;> simp only [exec_rxCollect, h]

/-- Settles O46: draining OVERFLOW leaves IDLE, in which the second RX_COLLECT finds no frame. -/
theorem rxCollectWithoutAFrame : Obligations.RxCollectWithoutAFrame := by
  refine fun s => ⟨fun hst => ?_, exec_rxCollect_not_ready⟩
  have hdrain := exec_rxCollect_overflow hst
  refine ⟨hdrain, ?_⟩
  rw [execSeq_cons_of_next hdrain, execSeq_cons_of_next (exec_rxCollect_not_ready (.inl rfl))]
  rfl

/-! RX_COLLECT of a frame that a stage refuses -/

theorem except_map_eq_error_iff {ε α β : Type} (x : Except ε α) (f : α → β) (e : ε) :
    x.map f = .error e ↔ x = .error e := by
  cases x <;> simp [Except.map]

theorem except_bind_eq_error_iff {ε α β : Type} (x : Except ε α) (f : α → Except ε β) (e : ε) :
    x.bind f = .error e ↔ x = .error e ∨ ∃ a, x = .ok a ∧ f a = .error e := by
  cases x <;> simp [Except.bind]

/-- The pipeline's error is that of its first failing stage (R295). -/
theorem rxPipeline_eq_error_iff (stream : List Byte) (s : State) (e : Stop) :
    rxPipeline stream s = .error e ↔
      frmExtract stream = .error e ∨
      ∃ o l F, frmExtract stream = .ok (o, l, F) ∧
        (escDecode F s.cfg.rxCap = .error e ∨
         ∃ P, escDecode F s.cfg.rxCap = .ok P ∧
           (frmDeserialize P = .error e ∨
            ∃ fr, frmDeserialize P = .ok fr ∧ regDecode fr.msgId fr.payload.bytes s.cfg.regRx = .error e)) := by
  simp only [rxPipeline_eq, except_bind_eq_error_iff, except_map_eq_error_iff, Prod.exists]

/-- The receiver is reset before the pipeline runs, so also where a stage fails (R292). -/
theorem exec_rxCollect_of_pipeline_error {s : State} {stream : List Byte} {c : ErrCode} (hst : s.rxSt = .frameReady)
    (hread : s.memRead .acc 0 s.rxWr = .ok stream)
    (hpipe : rxPipeline stream ((s.setSlice none).setRx .idle 0) = .error (.err c)) :
    exec .rxCollect s = .next ((((s.setSlice none).setRx .idle 0).forget .rxd).respond (.failure c)) := by
  simp [exec_rxCollect, hst, rxCollectReady, hread, hpipe]

/-- Settles O48: the four ways to fail are those of the pipeline, and of the buffers only RXD is written. -/
theorem rxCollectReportsTheFirstFailingStage : Obligations.RxCollectReportsTheFirstFailingStage := by
  intro s S c hst hread hfail
  have hpipe : rxPipeline S ((s.setSlice none).setRx .idle 0) = .error (.err c) :=
    (rxPipeline_eq_error_iff _ _ _).mpr hfail
  exact ⟨[], exec_rxCollect_of_pipeline_error hst hread hpipe⟩

end Sys2Proof.Machine

/-! PROOFS. The command word and the operand lanes (R90 to R95, R99): the fields of an encoded word, the decoder against
the encoder in both directions, and the rows of the table; O1 to O5. -/

namespace Sys2Proof.Machine

/-! The fields of a word -/

/-- The three fields are the whole word (R90). -/
theorem append_fields (w : Word) : opField w ++ rsvField w ++ imm8Field w = w := by
  apply BitVec.eq_of_getLsbD_eq
  intro i hi
  refine Eq.trans (BitVec.getLsbD_append ..) ?_
  rw [BitVec.getLsbD_append]
  simp only [opField, rsvField, imm8Field, BitVec.getLsbD_extractLsb']
  split_ifs with h8 h12
  · simp [h8]
  · simp [show i - 8 < 4 by omega, show 8 + (i - 8) = i by omega]
  · simp [show i - 8 - 4 < 4 by omega, show 12 + (i - 8 - 4) = i by omega]

theorem word_ext {w w' : Word} (hop : opField w = opField w') (hrsv : rsvField w = rsvField w')
    (himm : imm8Field w = imm8Field w') : w = w' := by
  rw [← append_fields w, hop, hrsv, himm]
  exact append_fields w'

/-- OP of a command's word (R91, R92). -/
def opCode : Instr → BitVec 4
  | .crc16 _ => 0x1
  | .escEncode _ _ => 0x2
  | .escDecode _ _ => 0x3
  | .frmSerialize _ _ _ => 0x4
  | .frmDeserialize _ => 0x5
  | .frmExtract _ => 0x6
  | .regDecodePayload _ _ => 0x7
  | .regEncodePayload _ => 0x8
  | .txSend _ => 0x9
  | .rxPut _ => 0xA
  | .rxReady => 0xB
  | .rxCollect => 0xC
  | .rxReset => 0xD

/-- IMM8 of a command's word: RX_PUT's byte, else 0 (R92, R280). -/
def immByte : Instr → Byte
  | .rxPut b => b
  | _ => 0

@[simp] theorem opField_encodeWord (i : Instr) : opField (encodeWord i) = opCode i := by
  cases i with
  | rxPut b => revert b; decide
  | _ => simp [encodeWord, opCode, opField]

@[simp] theorem rsvField_encodeWord (i : Instr) : rsvField (encodeWord i) = 0 := by
  cases i with
  | rxPut b => revert b; decide
  | _ => simp [encodeWord, rsvField]

@[simp] theorem imm8Field_encodeWord (i : Instr) : imm8Field (encodeWord i) = immByte i := by
  cases i with
  | rxPut b => revert b; decide
  | _ => simp [encodeWord, immByte, imm8Field]

theorem opCode_not_reserved (i : Instr) :
    ¬ ((opCode i).toNat = 0x0 ∨ (opCode i).toNat = 0xE ∨ (opCode i).toNat = 0xF) := by
  cases i <;> simp [opCode]

theorem immByte_eq_zero {i : Instr} (h : (opCode i).toNat ≠ 0xA) : immByte i = 0 := by
  cases i with
  | rxPut b => exact absurd rfl h
  | _ => rfl

/-! Decoding what was encoded -/

theorem decodeOperands_encodeOperands (i : Instr) :
    decodeOperands (opCode i).toNat (immByte i) (encodeOperands i) = .ok i := by
  cases i <;> rfl

theorem decode_encode (i : Instr) : decode (encode i) = .ok i := by
  rw [decode_eq_ok_iff]
  simp only [encode]
  rw [opField_encodeWord, rsvField_encodeWord, imm8Field_encodeWord]
  exact ⟨opCode_not_reserved i, rfl, fun ⟨himm, hop⟩ => himm (immByte_eq_zero hop), decodeOperands_encodeOperands i⟩

theorem accept_encode {cfg : Config} {i : Instr} (h : i.wellFormed cfg.opndMax = true) :
    accept cfg (encode i) = .ok i :=
  (accept_ok_iff cfg (encode i) i).mpr ⟨decode_encode i, h⟩

/-- Settles O1: the fields of the encoded word pass the decoder's checks, and the record holds the lanes its opcode
needs. -/
theorem decodeOfEncodeIsIdentity : Obligations.DecodeOfEncodeIsIdentity :=
  fun i => ⟨decode_encode i, fun _ => accept_encode⟩

/-! The word and lanes of what decodes -/

/-- Every lane that `r` fills holds the same operand in `r'`. -/
def LanesAgree (r r' : OperandRecord) : Prop :=
  (∀ x, r.seq = some x → r'.seq = some x) ∧ (∀ x, r.id = some x → r'.id = some x) ∧
  (∀ x, r.cap = some x → r'.cap = some x) ∧ ∀ x, r.msg = some x → r'.msg = some x

/-- The opcode, the immediate and the lanes that decode to a command are the command's own (R91, R95). -/
theorem of_decodeOperands_eq_ok {op : Nat} {imm : Byte} {r : OperandRecord} {i : Instr}
    (h : decodeOperands op imm r = .ok i) :
    op = (opCode i).toNat ∧ (op = 0xA → imm = immByte i) ∧ LanesAgree (encodeOperands i) r := by
  unfold decodeOperands at h
  split at h
  all_goals
    simp only [except_map_eq_ok_iff, except_bind_eq_ok_iff, needSeq_eq_ok_iff, needPlain_eq_ok_iff,
      needEncoded_eq_ok_iff, needId_eq_ok_iff, needCap_eq_ok_iff, needMsg_eq_ok_iff, Except.ok.injEq,
      reduceCtorEq] at h
  case h_1 | h_5 | h_6 | h_8 | h_9 =>
    obtain ⟨x, hx, rfl⟩ := h
    simp [LanesAgree, encodeOperands, OperandRecord.empty, opCode, hx]
  case h_2 | h_3 | h_7 =>
    obtain ⟨x, hx, y, hy, rfl⟩ := h
    simp [LanesAgree, encodeOperands, OperandRecord.empty, opCode, hx, hy]
  case h_4 =>
    obtain ⟨id, hid, x, hx, k, hk, rfl⟩ := h
    simp [LanesAgree, encodeOperands, OperandRecord.empty, opCode, hid, hx, hk]
  case h_10 | h_11 | h_12 | h_13 =>
    subst h
    simp [LanesAgree, encodeOperands, OperandRecord.empty, opCode, immByte]

theorem word_of_decode_eq_ok {c : Command} {i : Instr} (h : decode c = .ok i) :
    c.word = encodeWord i ∧ LanesAgree (encodeOperands i) c.opnds := by
  obtain ⟨-, hrsv, himm, hopnds⟩ := (decode_eq_ok_iff c i).mp h
  obtain ⟨hop, hbyte, hlanes⟩ := of_decodeOperands_eq_ok hopnds
  refine ⟨word_ext ?_ ?_ ?_, hlanes⟩
  · rw [opField_encodeWord, BitVec.eq_of_toNat_eq hop]
  · rw [rsvField_encodeWord, hrsv]
  · rw [imm8Field_encodeWord]
    by_cases hput : (opField c.word).toNat = 0xA
    · exact hbyte hput
    · rw [immByte_eq_zero (hop ▸ hput)]
      exact not_not.mp fun hne => himm ⟨hne, hput⟩

/-- Settles O2: the word by its three fields, the lanes by the opcode's operands. -/
theorem decodedCommandHasTheEncodedWord : Obligations.DecodedCommandHasTheEncodedWord :=
  fun _ _ => word_of_decode_eq_ok

/-! The rows of the table (R92, R93) -/

theorem tableRow_statement (i : Instr) : Laws.TableRow.Statement i := by
  cases i with
  | crc16 data => exact Laws.TableRow.crc16 data
  | escEncode plain cap => exact Laws.TableRow.escEncode plain cap
  | escDecode enc cap => exact Laws.TableRow.escDecode enc cap
  | frmSerialize id payload cap => exact Laws.TableRow.frmSerialize id payload cap
  | frmDeserialize data => exact Laws.TableRow.frmDeserialize data
  | frmExtract stream => exact Laws.TableRow.frmExtract stream
  | regDecodePayload id bytes => exact Laws.TableRow.regDecodePayload id bytes
  | regEncodePayload m => exact Laws.TableRow.regEncodePayload m
  | txSend m => exact Laws.TableRow.txSend m
  | rxPut b => exact Laws.TableRow.rxPut b
  | rxReady => exact Laws.TableRow.rxReady
  | rxCollect => exact Laws.TableRow.rxCollect
  | rxReset => exact Laws.TableRow.rxReset

theorem rowOf_lt (i : Instr) : Laws.TableRow.rowOf i < commandTable.length := by
  cases i <;> simp [Laws.TableRow.rowOf, commandTable]

theorem commandTable_nodup : commandTable.Nodup := by decide

/-- A command's word matches one row of the table and no other. -/
theorem exists_row_iff (i : Instr) :
    ∃ row₀ ∈ commandTable, ∀ row ∈ commandTable, encodeWord i &&& row.mask = row.pattern ↔ row = row₀ := by
  refine ⟨commandTable[Laws.TableRow.rowOf i]'(rowOf_lt i), List.getElem_mem _, fun row hrow => ?_⟩
  obtain ⟨k, hk, rfl⟩ := List.mem_iff_getElem.mp hrow
  have hrow := tableRow_statement i k hk
  rw [commandTable_nodup.getElem_inj_iff, ← hrow]
  simp [List.getElem?_eq_getElem hk, Row.accepts]

/-- RX_PUT's mask leaves IMM8 free, and RX_PUT of that byte has the word. -/
theorem eq_encodeWord_rxPut {w : Word} (h : w &&& 0xFF00 = 0xA000) : w = encodeWord (.rxPut (imm8Field w)) := by
  rw [encodeWord, ← h]
  apply BitVec.eq_of_getLsbD_eq
  intro i hi
  rcases Nat.lt_or_ge i 8 with h8 | h8
  · simp [imm8Field, h8, hi]
    tauto
  · have hmask : (0xFF00#16)[i] = true := by interval_cases i <;> simp
    simp [imm8Field, show ¬ i < 8 by omega, hi, hmask]

theorem exists_encodeWord_of_row {w : Word} {row : Row} (hrow : row ∈ commandTable)
    (h : w &&& row.mask = row.pattern) : ∃ i, w = encodeWord i := by
  have hfull (p : Word) (h : w &&& 0xFFFF = p) : w = p := by
    rw [← h]
    exact (BitVec.and_allOnes (x := w)).symm
  simp only [commandTable, List.mem_cons, List.not_mem_nil, or_false] at hrow
  rcases hrow with rfl | rfl | rfl | rfl | rfl | rfl | rfl | rfl | rfl | rfl | rfl | rfl | rfl
  exacts [⟨.crc16 (.plain ⟨[]⟩), hfull _ h⟩, ⟨.escEncode ⟨[]⟩ 0, hfull _ h⟩, ⟨.escDecode ⟨[]⟩ 0, hfull _ h⟩,
    ⟨.frmSerialize 0 ⟨[]⟩ 0, hfull _ h⟩, ⟨.frmDeserialize ⟨[]⟩, hfull _ h⟩, ⟨.frmExtract ⟨[]⟩, hfull _ h⟩,
    ⟨.regDecodePayload 0 ⟨[]⟩, hfull _ h⟩, ⟨.regEncodePayload (.heartbeat 0), hfull _ h⟩,
    ⟨.txSend (.heartbeat 0), hfull _ h⟩, ⟨.rxPut (imm8Field w), eq_encodeWord_rxPut h⟩, ⟨.rxReady, hfull _ h⟩,
    ⟨.rxCollect, hfull _ h⟩, ⟨.rxReset, hfull _ h⟩]

/-- Settles O3: the words that match a row are the words of commands, and each of those has one row. -/
theorem wordDecodesExactlyWhenItMatchesOneRow : Obligations.WordDecodesExactlyWhenItMatchesOneRow := by
  refine fun w => ⟨⟨?row, ?decodes⟩, ?unique⟩
  case row =>
    rintro ⟨r, i, h⟩
    obtain ⟨row, hrow, hiff⟩ := exists_row_iff i
    have hw : w = encodeWord i := (word_of_decode_eq_ok h).1
    exact ⟨row, hrow, hw ▸ (hiff row hrow).mpr rfl⟩
  case decodes =>
    rintro ⟨row, hrow, h⟩
    obtain ⟨i, rfl⟩ := exists_encodeWord_of_row hrow h
    exact ⟨encodeOperands i, i, decode_encode i⟩
  case unique =>
    intro r₁ h₁ r₂ h₂ hw₁ hw₂
    obtain ⟨i, rfl⟩ := exists_encodeWord_of_row h₁ hw₁
    obtain ⟨row, -, hiff⟩ := exists_row_iff i
    rw [(hiff r₁ h₁).mp hw₁, (hiff r₂ h₂).mp hw₂]

/-- Settles O4: each word written out is decoded by evaluation. -/
theorem sampleWordsDecodeAsTheTableSays : Obligations.SampleWordsDecodeAsTheTableSays :=
  ⟨rfl, rfl, rfl, rfl, rfl, rfl, rfl, rfl⟩

/-! RX_PUTS -/

/-- RX_PUT's word is 0xA0 and then its byte (R99). -/
theorem encodeWord_rxPut (b : Byte) : encodeWord (.rxPut b) = (0xA0 : Byte) ++ b := by
  revert b; decide

/-- Settles O5: byte by byte, the word of RX_PUT and what it decodes to. -/
theorem rxPutsExpandsToRxPutWords : Obligations.RxPutsExpandsToRxPutWords := by
  intro bs
  simp only [rxPuts, List.map_map]
  exact ⟨List.map_congr_left fun b _ => encodeWord_rxPut b, List.map_congr_left fun b _ => decode_encode (.rxPut b)⟩

end Sys2Proof.Machine

/-! PROOFS. What a command can do, said once: `exec_cases` names every state a command can leave and when it can stop
instead. From it the frames of a command and of a step; O18 to O21, and the steps of O6, O7, O9 and O50. -/

namespace Sys2Proof.Machine

/-! The outcomes of a command -/

/-- The responses a command that completes may give: success, or a code the error table lists for it (R321). -/
inductive Permitted (i : Instr) : Response → Prop where
  | success (v : Option Value) : Permitted i (.success v)
  | failure {c : ErrCode} (h : mayRaise i c = true) : Permitted i (.failure c)

/-- The state RX_COLLECT leaves where the pipeline decodes the frame `p` to the message `m` (R292 to R294). -/
def collectedState (s : State) (p : List Byte) (m : Msg) : State :=
  ((((s.setSlice none).setRx .idle 0).setMem (s.rxd.setMany 0 p) .rxd).setSlice (borrowOf m p.length)).respond
    (.success (some (.msg m (borrowOf m p.length))))

/-- What a command that completes leaves, one constructor per outcome of its rule. -/
inductive Effect (s : State) : Instr → State → Prop where
  /-- A function-unit command or RX_READY writes nothing but its response (R39, R288). -/
  | responds {i : Instr} {r : Response} (hrx : writesReceiver i = false) (htx : ∀ m, i ≠ .txSend m)
      (hr : Permitted i r) : Effect s i (s.respond r)
  /-- TX_SEND, refused by one of its checks (R262). -/
  | txRefused {m : Msg} {c : ErrCode} (hc : mayRaise (.txSend m) c = true) :
      Effect s (.txSend m) ((txFailed s).respond (.failure c))
  /-- TX_SEND, the bytes emitted (R263). -/
  | txEmitted {m : Msg} (hscr : (regEncode m).length + 6 ≤ s.cfg.txCap)
      (hencb : 2 * ((regEncode m).length + 2) ≤ s.cfg.txEncCap) :
      Effect s (.txSend m) ((txSent m s).respond (.success none))
  /-- RX_PUT in OVERFLOW (R282). -/
  | byteDropped {b : Byte} (hst : s.rxSt = .overflow) :
      Effect s (.rxPut b) ((s.setSlice none).respond (.success none))
  /-- RX_PUT with a full buffer (R282). -/
  | bufferFull {b : Byte} (hst : s.rxSt ≠ .overflow) (hfull : s.rxWr = s.cfg.rxCap) :
      Effect s (.rxPut b) (((s.setSlice none).setRx .overflow s.rxWr).respond (.success none))
  /-- RX_PUT with room for its byte (R281). -/
  | byteStored {b : Byte} (hst : s.rxSt ≠ .overflow) (hroom : s.rxWr < s.cfg.rxCap) :
      Effect s (.rxPut b) ((((s.setSlice none).setMem (s.acc.set s.rxWr b) .acc).setRx (rxNext s.rxSt b)
        (s.rxWr + 1)).respond (.success none))
  /-- RX_COLLECT in OVERFLOW (R296). -/
  | drained (hst : s.rxSt = .overflow) :
      Effect s .rxCollect (((s.setSlice none).setRx .idle 0).respond (.failure .outOfMemory))
  /-- RX_COLLECT without a complete frame (R297). -/
  | notReady (hst : s.rxSt = .idle ∨ s.rxSt = .frameOpen) :
      Effect s .rxCollect ((s.setSlice none).respond (.failure .messageNotReady))
  /-- RX_COLLECT of a frame that a stage refuses (R295). -/
  | stageFailed {stream : List Byte} {c : ErrCode} (hst : s.rxSt = .frameReady)
      (hread : s.memRead .acc 0 s.rxWr = .ok stream) (hc : c ∉ [ErrCode.noError, .outOfMemory, .messageNotReady])
      (hscan : c = .incomplete → frmScan 0 none stream = none) :
      Effect s .rxCollect ((((s.setSlice none).setRx .idle 0).forget .rxd).respond (.failure c))
  /-- RX_COLLECT that returns a message (R294). -/
  | collected {p : List Byte} {fr : Frame} {m : Msg} (hst : s.rxSt = .frameReady) (hframe : frmDeserialize p = .ok fr)
      (hmsg : regDecode fr.msgId fr.payload.bytes s.cfg.regRx = .ok m) (hlen : p.length ≤ s.cfg.rxCap) :
      Effect s .rxCollect (collectedState s p m)
  /-- RX_RESET (R301). -/
  | receiverReset : Effect s .rxReset (((s.setSlice none).setRx .idle 0).respond (.success none))

/-- A command that writes neither the receiver nor the sender answers with a permitted response. -/
theorem exec_eq_respond {i : Instr} (hrx : writesReceiver i = false) (htx : ∀ m, i ≠ .txSend m) (s : State) :
    ∃ r, Permitted i r ∧ exec i s = .next (s.respond r) := by
  cases i with
  | crc16 data => exact ⟨_, .success _, exec_crc16 data s⟩
  | escEncode plain cap =>
    rw [exec_escEncode]
    split
    exacts [⟨_, .failure rfl, rfl⟩, ⟨_, .success _, rfl⟩]
  | escDecode enc cap =>
    rw [exec_escDecode]
    split
    exacts [⟨_, .failure rfl, rfl⟩, ⟨_, .success _, rfl⟩]
  | frmSerialize id payload cap =>
    rw [exec_frmSerialize]
    split
    exacts [⟨_, .failure rfl, rfl⟩, ⟨_, .success _, rfl⟩]
  | frmDeserialize data =>
    rw [exec_frmDeserialize]
    rcases frmDeserialize_cases data.bytes with h | h | h | ⟨fr, h, -⟩ <;> rw [h]
    exacts [⟨_, .failure rfl, rfl⟩, ⟨_, .failure rfl, rfl⟩, ⟨_, .failure rfl, rfl⟩, ⟨_, .success _, rfl⟩]
  | frmExtract stream =>
    rw [exec_frmExtract]
    rcases frmExtract_cases stream.bytes with ⟨-, h⟩ | ⟨o, l, -, -, h⟩ <;> rw [h]
    exacts [⟨_, .failure rfl, rfl⟩, ⟨_, .success _, rfl⟩]
  | regDecodePayload id bytes =>
    rw [exec_regDecodePayload]
    rcases regDecode_cases id bytes.bytes s.cfg.regRx with h | h | ⟨m, h, -⟩ <;> rw [h]
    exacts [⟨_, .failure rfl, rfl⟩, ⟨_, .failure rfl, rfl⟩, ⟨_, .success _, rfl⟩]
  | regEncodePayload m => exact ⟨_, .success _, exec_regEncodePayload m s⟩
  | rxReady => exact ⟨_, .success _, exec_rxReady s⟩
  | txSend m => exact absurd rfl (htx m)
  | rxPut | rxCollect | rxReset => cases hrx

theorem exec_respond_effect {i : Instr} (hrx : writesReceiver i = false) (htx : ∀ m, i ≠ .txSend m) (s : State) :
    ∃ t, exec i s = .next t ∧ Effect s i t := by
  obtain ⟨r, hr, hexec⟩ := exec_eq_respond hrx htx s
  exact ⟨_, hexec, .responds hrx htx hr⟩

theorem exec_txSend_effect (m : Msg) (s : State) : ∃ t, exec (.txSend m) s = .next t ∧ Effect s (.txSend m) t := by
  rw [exec_txSend]
  split_ifs with hreg hsmall
  exacts [⟨_, rfl, .txRefused rfl⟩, ⟨_, rfl, .txRefused rfl⟩, ⟨_, rfl, .txEmitted (by omega) (by omega)⟩]

/-- The bytes ACC[0..rx_wr) can be read: each is written, and rx_wr is inside the buffer (R38, R42 item 1). -/
def State.Stored (s : State) : Prop := ∃ stream, s.memRead .acc 0 s.rxWr = .ok stream

theorem State.Stored.rxWr_le {s : State} (h : s.Stored) : s.rxWr ≤ s.cfg.rxCap := by
  obtain ⟨stream, h⟩ := h
  obtain ⟨hsize, -⟩ := (State.memRead_eq_ok_iff _ _ _ _ _).mp h
  simpa [State.size] using hsize

theorem Memory.getMany_cases (m : Memory) (a n : Nat) :
    (∃ xs, m.getMany a n = .ok xs) ∨ ∃ f, m.getMany a n = .error (.fault f) := by
  induction n generalizing a with
  | zero => exact .inl ⟨[], rfl⟩
  | succ n ih =>
    rw [Memory.getMany]
    cases m.get a with
    | none => exact .inr ⟨_, rfl⟩
    | some b => rcases ih (a + 1) with ⟨xs, h⟩ | ⟨f, h⟩ <;> simp [h, Except.map]

/-- A read either answers or stops; it reports no error code. -/
theorem State.memRead_cases (s : State) (B : Buf) (a n : Nat) :
    (∃ xs, s.memRead B a n = .ok xs) ∨ ∃ f, s.memRead B a n = .error (.fault f) := by
  rw [State.memRead]
  split
  · exact (s.mem B).getMany_cases a n
  · exact .inr ⟨_, rfl⟩

theorem exec_rxPut_effect (b : Byte) (s : State) :
    (∃ t, exec (.rxPut b) s = .next t ∧ Effect s (.rxPut b) t) ∨ (∃ f, exec (.rxPut b) s = .fault f) ∧ ¬ s.Stored := by
  by_cases hcap : s.rxWr ≤ s.cfg.rxCap
  · rw [exec_rxPut b s hcap]
    split_ifs with hst hfull
    exacts [.inl ⟨_, rfl, .byteDropped hst⟩, .inl ⟨_, rfl, .bufferFull hst hfull⟩,
      .inl ⟨_, rfl, .byteStored hst (by omega)⟩]
  · rcases exec_rxPut_cases b s with h | hst | h
    · exact absurd h hcap
    · exact .inl ⟨_, by simp [exec, execRxPut, rxPut_overflow b s hst], .byteDropped hst⟩
    · exact .inr ⟨⟨_, h⟩, fun hs => hcap hs.rxWr_le⟩

theorem exec_rxCollect_effect (s : State) :
    (∃ t, exec .rxCollect s = .next t ∧ Effect s .rxCollect t) ∨ (∃ f, exec .rxCollect s = .fault f) ∧ ¬ s.Stored := by
  cases hst : s.rxSt with
  | overflow => exact .inl ⟨_, exec_rxCollect_overflow hst, .drained hst⟩
  | idle => exact .inl ⟨_, exec_rxCollect_not_ready (.inl hst), .notReady (.inl hst)⟩
  | frameOpen => exact .inl ⟨_, exec_rxCollect_not_ready (.inr hst), .notReady (.inr hst)⟩
  | frameReady =>
    have hexec : exec .rxCollect s = rxCollectReady (s.setSlice none) := by simp only [exec_rxCollect, hst]
    rw [hexec]
    rcases s.memRead_cases .acc 0 s.rxWr with ⟨stream, hread⟩ | ⟨f, hread⟩
    · rcases rxCollectReady_cases (s.setSlice none) stream hread with
        ⟨c, hc, hscan, -, h⟩ | ⟨p, fr, m, hframe, hmsg, hlen, h⟩
      exacts [.inl ⟨_, h, .stageFailed hst hread hc hscan⟩, .inl ⟨_, h, .collected hst hframe hmsg hlen⟩]
    · exact .inr ⟨⟨f, by simp [rxCollectReady, hread]⟩, by simp [State.Stored, hread]⟩

/-- All that a command can do: one of the outcomes of its rule, or a stop where ACC[0..rx_wr) cannot be read
(R12, R38). -/
theorem exec_cases (i : Instr) (s : State) :
    (∃ t, exec i s = .next t ∧ Effect s i t) ∨ (∃ f, exec i s = .fault f) ∧ ¬ s.Stored := by
  cases i with
  | txSend m => exact .inl (exec_txSend_effect m s)
  | rxPut b => exact exec_rxPut_effect b s
  | rxCollect => exact exec_rxCollect_effect s
  | rxReset => exact .inl ⟨_, exec_rxReset s, .receiverReset⟩
  | _ => exact .inl (exec_respond_effect rfl (by rintro m ⟨⟩) s)

theorem effect_of_exec {i : Instr} {s t : State} (h : exec i s = .next t) : Effect s i t := by
  rcases exec_cases i s with ⟨t', hexec, heffect⟩ | ⟨⟨f, hexec⟩, -⟩ <;> rw [hexec] at h <;> cases h
  exact heffect

theorem exec_completes (i : Instr) {s : State} (hs : s.Stored) : ∃ t, exec i s = .next t ∧ Effect s i t :=
  (exec_cases i s).resolve_right fun h => h.2 hs

/-! Frames -/

theorem Effect.cfg_eq {i : Instr} {s t : State} (h : Effect s i t) : t.cfg = s.cfg := by
  cases h <;> rfl

theorem Effect.inputs_eq {i : Instr} {s t : State} (h : Effect s i t) : t.inputs = s.inputs := by
  cases h <;> rfl

/-- The receiver's state is the same. -/
structure SameReceiver (s t : State) : Prop where
  rxSt : t.rxSt = s.rxSt
  rxWr : t.rxWr = s.rxWr
  slice : t.slice = s.slice
  acc : t.acc = s.acc
  rxd : t.rxd = s.rxd

theorem Effect.sameReceiver {i : Instr} {s t : State} (h : Effect s i t) (hi : writesReceiver i = false) :
    SameReceiver s t := by
  cases h with
  | responds | txRefused | txEmitted => exact ⟨rfl, rfl, rfl, rfl, rfl⟩
  | _ => cases hi

theorem Effect.sameSender {i : Instr} {s t : State} (h : Effect s i t) (hi : ∀ m, i ≠ .txSend m) :
    t.txOut = s.txOut ∧ t.scr = s.scr ∧ t.encb = s.encb := by
  cases h with
  | txRefused | txEmitted => exact absurd rfl (hi _)
  | _ => exact ⟨rfl, rfl, rfl⟩

theorem Effect.txOut_grows {i : Instr} {s t : State} (h : Effect s i t) : ∃ bs, t.txOut = s.txOut ++ bs := by
  cases h with
  | txEmitted => exact ⟨_, rfl⟩
  | _ => exact ⟨[], (List.append_nil _).symm⟩

/-- Settles O18: a step takes nothing, resets, or has the effect of a command, and none of these writes the
configuration. -/
theorem noStepChangesTheConfiguration : Obligations.NoStepChangesTheConfiguration := by
  intro s t h
  rcases step_cases s with ⟨-, hstep⟩ | ⟨rest, -, hstep⟩ | ⟨c, rest, r, -, -, hstep⟩ | ⟨c, rest, i, -, -, hstep⟩ <;>
    rw [hstep] at h
  · cases h; rfl
  · cases h; rfl
  · cases h
  · exact (effect_of_exec h).cfg_eq

/-- Settles O19: no effect writes the port, and only those of the receiver's commands write its state. -/
theorem onlyReceiverCommandsWriteTheReceiver : Obligations.OnlyReceiverCommandsWriteTheReceiver := by
  intro i s t h
  refine ⟨(effect_of_exec h).inputs_eq, fun hi => ?_⟩
  obtain ⟨hst, hwr, hslice, hacc, hrxd⟩ := (effect_of_exec h).sameReceiver hi
  exact ⟨hst, hwr, hslice, fun a => by rw [hacc], fun a => by rw [hrxd]⟩

/-- Settles O20: only TX_SEND's effects write the output, SCR or ENCB, and the bytes it emits come last. -/
theorem onlyTxSendEmitsAndOutputGrows : Obligations.OnlyTxSendEmitsAndOutputGrows := by
  intro i s t h
  refine ⟨(effect_of_exec h).txOut_grows, fun hi => ?_⟩
  obtain ⟨hout, hscr, hencb⟩ := (effect_of_exec h).sameSender hi
  exact ⟨hout, fun a => by rw [hscr], fun a => by rw [hencb]⟩

/-! OVERFLOW (R327) -/

theorem exec_rxPut_overflow (b : Byte) {s : State} (h : s.rxSt = .overflow) :
    exec (.rxPut b) s = .next ((s.setSlice none).respond (.success none)) := by
  simp [exec, execRxPut, rxPut_overflow b s h]

theorem Effect.overflow_iff {i : Instr} {s t : State} (h : Effect s i t) (hst : s.rxSt = .overflow) :
    t.rxSt = .overflow ↔ i ≠ .rxCollect ∧ i ≠ .rxReset := by
  cases h with
  | responds hrx => 
    exact iff_of_true hst ⟨(by rintro rfl; cases hrx), (by rintro rfl; cases hrx)⟩
  | txRefused | txEmitted | byteDropped => exact iff_of_true hst ⟨nofun, nofun⟩
  | bufferFull hne | byteStored hne => exact absurd hst hne
  | drained => exact iff_of_false nofun fun h => h.1 rfl
  | notReady h => rw [hst] at h; cases h <;> contradiction
  | stageFailed h | collected h => rw [hst] at h; cases h
  | receiverReset => exact iff_of_false nofun fun h => h.2 rfl

theorem step_of_reset {s : State} {rest : List PortInput} (h : s.inputs = .reset :: rest) :
    step s = .next (hardwareReset (s.setInputs rest)) := by
  simp only [step, h]

/-- Settles O21: the dropped byte by RX_PUT's rule, the commands by their effects. -/
theorem overflowIsStickyUntilDrained : Obligations.OverflowIsStickyUntilDrained := by
  refine fun s hst => ⟨fun b => exec_rxPut_overflow b hst, fun i t h => (effect_of_exec h).overflow_iff hst, ?_⟩
  intro rest t hin h
  rw [step_of_reset hin] at h
  cases h
  rfl

/-! Single steps and RX_RESET -/

theorem step_of_decode {s : State} {c : Command} {rest : List PortInput} {i : Instr}
    (hs : s.inputs = .command c :: rest) (hc : decode c = .ok i) (hi : i.wellFormed s.cfg.opndMax = true) :
    step s = exec i (s.setInputs rest) :=
  step_of_accept_ok hs ((accept_ok_iff _ _ _).mpr ⟨hc, hi⟩)

/-- Settles O6: within OPND_MAX what decodes is accepted. -/
theorem stepRunsTheDecodedCommand : Obligations.StepRunsTheDecodedCommand :=
  fun _ _ _ _ => step_of_decode

theorem step_of_empty {s : State} (h : s.inputs = []) : step s = .next s := by
  simp only [step, h]

/-- Settles O7: the step's first arm (log 8). -/
theorem emptyPortHoldsTheState : Obligations.EmptyPortHoldsTheState :=
  fun _ => step_of_empty

/-- Settles O9: the reset and RX_RESET leave the same receiver registers, from whatever state RX_RESET runs in. -/
theorem resetInputGivesTheFreshReceiver : Obligations.ResetInputGivesTheFreshReceiver := by
  intro s rest h
  exact ⟨_, step_of_reset h, rfl, rfl, rfl, rfl, rfl, fun u => ⟨_, exec_rxReset u, rfl, rfl, rfl⟩⟩

/-- Settles O50: RX_RESET's one outcome, run once and twice. -/
theorem rxResetReinitializesTheReceiver : Obligations.RxResetReinitializesTheReceiver := by
  intro s
  refine ⟨exec_rxReset s, ?_⟩
  rw [execSeq_cons_of_next (exec_rxReset s), execSeq_cons_of_next (exec_rxReset _), exec_rxReset]
  rfl

end Sys2Proof.Machine

/-! PROOFS. The invariant (R42, R38, R63, R322): each state operation keeps it, so every effect of a command and
every step does; O12, O13, and what it gives: O14, O10, O15, O16. -/

namespace Sys2Proof.Machine

/-! Operations that keep the invariant -/

theorem resetWith_inv {cfg : Config} (h : cfg.wf = true) : (State.resetWith cfg).Inv where
  legal := h
  canonical := State.resetWith_wf cfg
  stored := ⟨[], rfl, List.not_mem_nil⟩
  full := nofun
  slice := nofun
  response := nofun

/-- Settles O12: nothing is stored, no slice is valid and no response is given. -/
theorem resetMeetsTheInvariant : Obligations.ResetMeetsTheInvariant :=
  ⟨resetWith_inv rfl, fun _ => resetWith_inv⟩

theorem State.Inv.respond {s : State} (h : s.Inv) {r : Response} (hr : r.wf = true) : (s.respond r).Inv :=
  { h with response := by rintro _ ⟨⟩; exact hr }

theorem State.Inv.setInputs {s : State} (h : s.Inv) (l : List PortInput) : (s.setInputs l).Inv :=
  { h with }

theorem State.Inv.endSlice {s : State} (h : s.Inv) : (s.setSlice none).Inv :=
  { h with slice := nofun }

theorem State.Inv.setSlice {s : State} (h : s.Inv) {v : Option View}
    (hv : ∀ w, v = some w → w.buf = .rxd ∧ w.off = 3 ∧ ∃ bs, s.memRead .rxd w.off w.len = .ok bs) :
    (s.setSlice v).Inv :=
  { h with slice := hv }

theorem State.Inv.emit {s : State} (h : s.Inv) (bs : List Byte) : (s.emit bs).Inv :=
  { h with }

theorem State.Inv.resetReceiver {s : State} (h : s.Inv) : (s.setRx .idle 0).Inv :=
  { h with
    stored := ⟨[], rfl, List.not_mem_nil⟩
    full := nofun }

theorem State.Inv.overflow {s : State} (h : s.Inv) (hfull : s.rxWr = s.cfg.rxCap) : (s.setRx .overflow s.rxWr).Inv :=
  { h with
    stored := by
      obtain ⟨stream, hread, -⟩ := h.stored
      exact ⟨stream, hread, trivial⟩
    full := fun _ => hfull }

theorem State.setMem_keeps_wf {s : State} (h : ∀ C, (s.mem C).wf (s.size C) = true) {B : Buf} {m : Memory}
    (hm : m.wf (s.size B) = true) (C : Buf) : ((s.setMem m B).mem C).wf ((s.setMem m B).size C) = true := by
  by_cases hC : C = B
  · subst hC
    simpa using hm
  · simpa [State.setMem_mem_of_ne s m B C hC] using h C

/-- Any canonical contents may replace SCR's and ENCB's, and RXD's where no slice is valid. -/
theorem State.Inv.setMem {s : State} (h : s.Inv) {B : Buf} {m : Memory} (hm : m.wf (s.size B) = true) (hacc : B ≠ .acc)
    (hrxd : B = .rxd → s.slice = none) : (s.setMem m B).Inv where
  legal := by simpa using h.legal
  canonical := State.setMem_keeps_wf h.canonical hm
  stored := by simpa [State.memRead_setMem_of_ne s B .acc m _ _ hacc.symm] using h.stored
  full := by simpa using h.full
  slice := fun v hv => by
    rw [State.setMem_slice] at hv
    have hB : Buf.rxd ≠ B := by
      rintro rfl
      rw [hrxd rfl] at hv
      cases hv
    simpa [State.memRead_setMem_of_ne s B .rxd m _ _ hB] using h.slice v hv
  response := by simpa using h.response

theorem State.Inv.forget {s : State} (h : s.Inv) {B : Buf} (hacc : B ≠ .acc) (hrxd : B = .rxd → s.slice = none) :
    (s.forget B).Inv :=
  h.setMem rfl hacc hrxd

theorem State.Inv.setMany {s : State} (h : s.Inv) {B : Buf} {xs : List Byte} (hlen : xs.length ≤ s.size B)
    (hacc : B ≠ .acc) (hrxd : B = .rxd → s.slice = none) : (s.setMem ((s.mem B).setMany 0 xs) B).Inv :=
  h.setMem (Memory.wf_setMany _ xs _ 0 (by omega) (h.canonical B)) hacc hrxd

/-! A byte stored in ACC -/

/-- A byte written right after the bytes read is read after them. -/
theorem State.memRead_set_end {s : State} {B : Buf} {n : Nat} {xs : List Byte} (h : s.memRead B 0 n = .ok xs)
    (hn : n < s.size B) (b : Byte) : (s.setMem ((s.mem B).set n b) B).memRead B 0 (n + 1) = .ok (xs ++ [b]) := by
  rw [State.memRead_eq_ok_iff] at h ⊢
  obtain ⟨-, hlen, hget⟩ := h
  refine ⟨by rw [State.setMem_size]; omega, by simp [hlen], fun k hk => ?_⟩
  rw [State.setMem_mem_self]
  rw [List.length_append, List.length_singleton] at hk
  rcases Nat.lt_or_ge k n with hkn | hkn
  · rw [Memory.get_set_of_ne _ _ (by omega), List.getElem_append_left (by omega)]
    exact hget k (by omega)
  · obtain rfl : k = n := by omega
    rw [Nat.zero_add, Memory.get_set_self]
    simp [hlen]

/-- What rx_st says of the stored bytes after one more (R281, R42 items 3 to 5). -/
theorem receiverShape_rxNext {st : RxState} {S : List Byte} (h : receiverShape st S) (b : Byte) :
    receiverShape (rxNext st b) (S ++ [b]) := by
  cases st with
  | idle =>
    by_cases hb : b = startByte
    · rw [rxNext, if_pos hb, hb]
      exact ⟨S, [], rfl, h, List.not_mem_nil⟩
    · rw [rxNext, if_neg hb]
      exact List.not_mem_append h (List.mem_singleton.not.mpr (Ne.symm hb))
  | frameOpen =>
    obtain ⟨pre, post, rfl, hpre, hpost⟩ := h
    by_cases hb : b = endByte
    · rw [rxNext, if_pos hb, hb]
      exact ⟨pre, post, [], by simp, hpre, hpost⟩
    · rw [rxNext, if_neg hb]
      exact ⟨pre, post ++ [b], by simp, hpre, List.not_mem_append hpost (List.mem_singleton.not.mpr (Ne.symm hb))⟩
  | frameReady =>
    obtain ⟨pre, mid, post, rfl, hpre, hmid⟩ := h
    exact ⟨pre, mid, post ++ [b], by simp, hpre, hmid⟩
  | overflow => trivial

theorem State.Inv.storeByte {s : State} (h : s.Inv) (hst : s.rxSt ≠ .overflow) (hroom : s.rxWr < s.cfg.rxCap)
    (b : Byte) : ((s.setMem (s.acc.set s.rxWr b) .acc).setRx (rxNext s.rxSt b) (s.rxWr + 1)).Inv where
  legal := h.legal
  canonical := by
    intro C
    rw [State.setRx_mem, State.setRx_size]
    exact State.setMem_keeps_wf (B := .acc) h.canonical (Memory.wf_set _ _ _ b hroom (h.canonical .acc)) C
  stored := by
    obtain ⟨stream, hread, hshape⟩ := h.stored
    exact ⟨stream ++ [b], State.memRead_set_end hread hroom b, receiverShape_rxNext hshape b⟩
  full := fun hover => absurd hover (rxNext_ne_overflow _ _ hst)
  slice := fun v hv => by
    have := State.memRead_setMem_of_ne s .acc .rxd (s.acc.set s.rxWr b) v.off v.len (by decide)
    rw [State.setRx_memRead, this]
    exact h.slice v hv
  response := h.response

/-! A message collected into RXD -/

/-- The slice a collected message borrows lies inside the decoded frame, behind its START and id (R294). -/
theorem borrowOf_readable {s : State} {p : List Byte} {fr : Frame} {m : Msg} (hframe : frmDeserialize p = .ok fr)
    (hlen : p.length ≤ s.cfg.rxCap) {v : View} (hv : borrowOf m p.length = some v) :
    v.buf = .rxd ∧ v.off = 3 ∧
      ∃ bs, (s.setMem (s.rxd.setMany 0 p) .rxd).memRead .rxd v.off v.len = .ok bs := by
  have hsix : 6 ≤ p.length := by
    rcases frmDeserialize_cases p with h | h | h | ⟨-, -, h⟩
    case inr.inr.inr => exact h
    all_goals rw [h] at hframe; cases hframe
  cases m with
  | spectrumData a =>
    cases hv
    have hread := State.memRead_part s .rxd s.rxd 0 3 (p.length - 6) p (by simpa [State.size] using hlen) (by omega)
    exact ⟨rfl, rfl, _, hread⟩
  | _ => cases hv

/-! Effects and steps -/

theorem frame_length (id : U16) (p : List Byte) :
    (frameBody id p ++ frameTrailer (frameCrc id p)).length = p.length + 6 := by
  simp [frameBody, frameTrailer]

theorem escaped_span_length_le (id : U16) (p : List Byte) :
    (escBytes ([loByte id, hiByte id] ++ p)).length ≤ 2 * (p.length + 2) := by
  simpa using escBytes_length_le ([loByte id, hiByte id] ++ p)

theorem txSent_inv {m : Msg} {s : State} (h : s.Inv) (hscr : (regEncode m).length + 6 ≤ s.cfg.txCap)
    (hencb : 2 * ((regEncode m).length + 2) ≤ s.cfg.txEncCap) : (txSent m s).Inv := by
  have hframe := h.setMany (B := .scr) ((frame_length (msgId m) (regEncode m)).trans_le hscr) (by decide) nofun
  have hspan := hframe.setMany (B := .encb) ((escaped_span_length_le (msgId m) (regEncode m)).trans hencb) (by decide)
    nofun
  exact hspan.emit _

theorem Response.failure_wf (c : ErrCode) : (Response.failure c).wf = true := by cases c <;> rfl

theorem Permitted.wf {i : Instr} {r : Response} (h : Permitted i r) : r.wf = true := by
  cases h
  exacts [rfl, Response.failure_wf _]

theorem Effect.inv {i : Instr} {s t : State} (hs : s.Inv) (h : Effect s i t) : t.Inv := by
  cases h with
  | responds _ _ hr => exact hs.respond hr.wf
  | txRefused =>
    have hscr := hs.forget (B := .scr) (by decide) nofun
    exact (hscr.forget (B := .encb) (by decide) nofun).respond (Response.failure_wf _)
  | txEmitted hscr hencb => exact (txSent_inv hs hscr hencb).respond rfl
  | byteDropped => exact hs.endSlice.respond rfl
  | bufferFull _ hfull => exact (hs.endSlice.overflow hfull).respond rfl
  | byteStored hst hroom => exact (hs.endSlice.storeByte hst hroom _).respond rfl
  | drained => exact hs.endSlice.resetReceiver.respond rfl
  | notReady => exact hs.endSlice.respond rfl
  | stageFailed => exact (hs.endSlice.resetReceiver.forget (by decide) fun _ => rfl).respond (Response.failure_wf _)
  | collected _ hframe _ hlen =>
    refine ((hs.endSlice.resetReceiver.setMany (B := .rxd) hlen (by decide) fun _ => rfl).setSlice ?_).respond rfl
    exact fun w => borrowOf_readable (s := (s.setSlice none).setRx .idle 0) hframe hlen
  | receiverReset => exact hs.endSlice.resetReceiver.respond rfl

/-- A step holds the state, resets it, or has the effect of a command on the state without its input. -/
theorem step_keeps_inv {s t : State} (hs : s.Inv) (h : step s = .next t) : t.Inv := by
  rcases step_cases s with ⟨-, hstep⟩ | ⟨rest, -, hstep⟩ | ⟨c, rest, r, -, -, hstep⟩ | ⟨c, rest, i, -, -, hstep⟩ <;>
    rw [hstep] at h
  · cases h
    exact hs
  · cases h
    exact (resetWith_inv hs.legal).setInputs rest
  · cases h
  · exact (effect_of_exec h).inv (hs.setInputs rest)

/-- Settles O13: each effect of a command is made of operations that keep the invariant. -/
theorem stepKeepsTheInvariant : Obligations.StepKeepsTheInvariant :=
  fun _ _ => step_keeps_inv

/-! What a command answers from an invariant state -/

theorem State.Inv.isStored {s : State} (h : s.Inv) : s.Stored := by
  obtain ⟨stream, hread, -⟩ := h.stored
  exact ⟨stream, hread⟩

/-- RX_COLLECT's INCOMPLETE needs the invariant: in FRAME_READY the scan finds a frame (R298). -/
theorem Effect.exists_permitted {i : Instr} {s t : State} (hs : s.Inv) (h : Effect s i t) :
    ∃ r, t.resp = some r ∧ Permitted i r := by
  cases h with
  | responds _ _ hr => exact ⟨_, rfl, hr⟩
  | txRefused hc => exact ⟨_, rfl, .failure hc⟩
  | drained | notReady => exact ⟨_, rfl, .failure rfl⟩
  | stageFailed hst hread hc hscan =>
    obtain ⟨stream, hread', hshape⟩ := hs.stored
    obtain rfl : _ = stream := Except.ok.inj (hread.symm.trans hread')
    rw [hst] at hshape
    obtain ⟨pre, mid, post, rfl, hpre, hmid⟩ := hshape
    have hinc := fun e => frmScan_ready pre mid post hpre hmid (hscan e)
    rw [List.mem_cons, not_or] at hc
    exact ⟨_, rfl, .failure (by rw [mayRaise, bne_iff_ne.mpr hc.1, bne_iff_ne.mpr hinc]; rfl)⟩
  | _ => exact ⟨_, rfl, .success _⟩

theorem exec_answers {s : State} (hs : s.Inv) (i : Instr) :
    ∃ t r, exec i s = .next t ∧ t.resp = some r ∧ Permitted i r := by
  obtain ⟨t, hexec, heffect⟩ := exec_completes i hs.isStored
  obtain ⟨r, hresp, hr⟩ := heffect.exists_permitted hs
  exact ⟨t, r, hexec, hresp, hr⟩

theorem Permitted.accepted {i : Instr} {r : Response} (h : Permitted i r) :
    r.accepted = true ∧ r.err.isSome = true ∧ (r.value.isSome = true → r.err = some .noError) := by
  cases h
  exacts [⟨rfl, rfl, fun _ => rfl⟩, ⟨rfl, rfl, nofun⟩]

theorem step_ne_fault {s : State} (hs : s.Inv) (f : Fault) : step s ≠ .fault f := by
  rcases step_cases s with ⟨-, h⟩ | ⟨rest, -, h⟩ | ⟨c, rest, r, -, -, h⟩ | ⟨c, rest, i, -, -, h⟩
  case inr.inr.inr =>
    obtain ⟨t, r, hexec, -, -⟩ := exec_answers (hs.setInputs rest) i
    rw [h, hexec]
    nofun
  all_goals rw [h]; nofun

/-- Settles O14: the bytes a command reads are stored, so it completes, and its response is a permitted one. -/
theorem everyCommandCompletesWithoutFault : Obligations.EveryCommandCompletesWithoutFault := by
  refine fun s hs => ⟨step_ne_fault hs, fun i => ?_⟩
  obtain ⟨t, r, hexec, hresp, hr⟩ := exec_answers hs i
  exact ⟨t, r, hexec, hresp, hr.accepted⟩

/-- Settles O10: the state after reset meets the invariant, whatever is presented. -/
theorem anyCommandCompletesFirstAfterReset : Obligations.AnyCommandCompletesFirstAfterReset := by
  intro cfg i hcfg hi
  obtain ⟨t, r, hexec, hresp, -⟩ := exec_answers ((resetWith_inv hcfg).setInputs []) i
  refine ⟨t, ?_, by rw [hresp]; rfl⟩
  rw [← hexec]
  exact step_of_decode rfl (decode_encode i) hi

/-! The receiver's invariants by index (R42) -/

theorem getElem?_ne_of_not_mem {α : Type} {a : α} {xs : List α} (h : a ∉ xs) (k : Nat) : xs[k]? ≠ some a :=
  fun e => h (List.mem_of_getElem? e)

theorem getElem?_middle {α : Type} (pre : List α) (a : α) (post : List α) :
    (pre ++ a :: post)[pre.length]? = some a := by
  simp

theorem getElem?_before_middle {α : Type} {a : α} {pre : List α} (h : a ∉ pre) (rest : List α) {k : Nat}
    (hk : k < pre.length) : (pre ++ rest)[k]? ≠ some a := by
  rw [List.getElem?_append_left hk]
  exact getElem?_ne_of_not_mem h k

theorem getElem?_after_middle {α : Type} (pre : List α) (a : α) (post : List α) {k : Nat} (hk : pre.length < k) :
    (pre ++ a :: post)[k]? = post[k - pre.length - 1]? := by
  rw [List.getElem?_append_right hk.le, show k - pre.length = (k - pre.length - 1) + 1 by omega,
    List.getElem?_cons_succ]
  rfl

theorem frameOpen_by_index {S : List Byte} (h : receiverShape .frameOpen S) :
    ∃ p : Nat, S[p]? = some startByte ∧ (∀ k, k < p → S[k]? ≠ some startByte) ∧ ∀ k, p < k → S[k]? ≠ some endByte := by
  obtain ⟨pre, post, rfl, hpre, hpost⟩ := h
  refine ⟨pre.length, getElem?_middle _ _ _, fun k => getElem?_before_middle hpre _, fun k hk => ?_⟩
  rw [getElem?_after_middle _ _ _ hk]
  exact getElem?_ne_of_not_mem hpost _

theorem frameReady_by_index {S : List Byte} (h : receiverShape .frameReady S) :
    ∃ p q : Nat, p < q ∧ S[p]? = some startByte ∧ (∀ k, k < p → S[k]? ≠ some startByte) ∧ S[q]? = some endByte ∧
      ∀ k, p < k → k < q → S[k]? ≠ some endByte := by
  obtain ⟨pre, mid, post, rfl, hpre, hmid⟩ := h
  refine ⟨pre.length, pre.length + 1 + mid.length, by omega, getElem?_middle _ _ _,
    fun k => getElem?_before_middle hpre _, ?_, fun k hpk hkq => ?_⟩
  · rw [getElem?_after_middle _ _ _ (by omega), show pre.length + 1 + mid.length - pre.length - 1 = mid.length by omega]
    exact getElem?_middle _ _ _
  · rw [getElem?_after_middle _ _ _ hpk]
    exact getElem?_before_middle hmid _ (by omega)

/-- Settles O15: the step keeps the invariant, whose shapes are these index statements. -/
theorem receiverInvariantsHoldAfterEveryStep : Obligations.ReceiverInvariantsHoldAfterEveryStep := by
  intro s t hs h
  have ht := step_keeps_inv hs h
  obtain ⟨S, hread, hshape⟩ := ht.stored
  obtain ⟨-, hlen, hget⟩ := (State.memRead_eq_ok_iff _ _ _ _ _).mp hread
  have hacc (k : Nat) (hk : k < S.length) : t.acc.get k = some S[k] := by
    rw [← hget k hk, Nat.zero_add]
    rfl
  refine ⟨ht.isStored.rxWr_le, ht.full, S, hlen, hacc, fun hst => ?_, fun hst => ?_,
    fun hst => ?_⟩ <;> rw [hst] at hshape
  · exact List.forall_mem_ne'.mpr hshape
  · exact frameOpen_by_index hshape
  · exact frameReady_by_index hshape

/-! The error table (R321) -/

theorem mayRaise_invalidMagic (i : Instr) :
    mayRaise i .invalidMagic = true ↔ (∃ d, i = .frmDeserialize d) ∨ i = .rxCollect := by
  cases i <;> simp [mayRaise]

theorem mayRaise_invalidCrc (i : Instr) :
    mayRaise i .invalidCrc = true ↔ (∃ d, i = .frmDeserialize d) ∨ i = .rxCollect := by
  cases i <;> simp [mayRaise]

theorem mayRaise_incorrectAlignment (i : Instr) :
    mayRaise i .incorrectAlignment = true ↔ (∃ id p, i = .regDecodePayload id p) ∨ i = .rxCollect := by
  cases i <;> simp [mayRaise]

theorem mayRaise_notEnoughData (i : Instr) :
    mayRaise i .notEnoughData = true ↔ ((∃ d, i = .frmDeserialize d) ∨ i = .rxCollect) ∨
      (∃ p cap, i = .escEncode p cap) ∨ (∃ e cap, i = .escDecode e cap) ∨
      (∃ id p cap, i = .frmSerialize id p cap) ∨ ∃ m, i = .txSend m := by
  cases i <;> simp [mayRaise]

theorem mayRaise_incomplete (i : Instr) : mayRaise i .incomplete = true ↔ ∃ d, i = .frmExtract d := by
  cases i <;> simp [mayRaise]

theorem mayRaise_unknownMsgId (i : Instr) :
    mayRaise i .unknownMsgId = true ↔ ((∃ id p, i = .regDecodePayload id p) ∨ i = .rxCollect) ∨ ∃ m, i = .txSend m := by
  cases i <;> simp [mayRaise]

theorem mayRaise_outOfMemory (i : Instr) : mayRaise i .outOfMemory = true ↔ i = .rxCollect := by
  cases i <;> simp [mayRaise]

theorem mayRaise_messageNotReady (i : Instr) : mayRaise i .messageNotReady = true ↔ i = .rxCollect := by
  cases i <;> simp [mayRaise]

@[simp] theorem Response.failure_inj {c d : ErrCode} : Response.failure c = Response.failure d ↔ c = d := by
  simp [Response.failure]

/-- RX_COLLECT reports OUT_OF_MEMORY and MESSAGE_NOT_READY only in the states of their rules (R296, R297). -/
theorem Effect.rxSt_of_collect_error {s t : State} (h : Effect s .rxCollect t) {c : ErrCode}
    (hresp : t.resp = some (.failure c)) :
    (c = .outOfMemory → s.rxSt = .overflow) ∧ (c = .messageNotReady → s.rxSt = .idle ∨ s.rxSt = .frameOpen) := by
  cases h with
  | responds hrx => cases hrx
  | drained hst =>
    obtain rfl := Response.failure_inj.mp (Option.some.inj hresp)
    exact ⟨fun _ => hst, nofun⟩
  | notReady hst =>
    obtain rfl := Response.failure_inj.mp (Option.some.inj hresp)
    exact ⟨nofun, fun _ => hst⟩
  | stageFailed _ _ hc =>
    obtain rfl := Response.failure_inj.mp (Option.some.inj hresp)
    exact ⟨by rintro rfl; simp at hc, by rintro rfl; simp at hc⟩
  | collected =>
    cases hresp

/-- Settles O16: the response is a permitted one, and RX_COLLECT's own two codes come in the states of their rules. -/
theorem errorCodesComeOnlyFromTheirCommands : Obligations.ErrorCodesComeOnlyFromTheirCommands := by
  constructor
  · intro s t i c hs hexec hc hresp
    obtain ⟨r, hr, hperm⟩ := (effect_of_exec hexec).exists_permitted hs
    obtain rfl : r = .failure c := Option.some.inj (hr.symm.trans hresp)
    generalize hf : Response.failure c = r at hperm
    cases hperm with
    | success v => exact absurd (Option.some.inj (congrArg Response.err hf)) hc
    | failure hraise => exact Response.failure_inj.mp hf ▸ hraise
  · intro s t i hs hexec
    have heffect := effect_of_exec hexec
    obtain ⟨r, hr, hperm⟩ := heffect.exists_permitted hs
    cases hperm with
    | success v => exact ⟨_, 0, hr, rfl, by decide, by simp⟩
    | @failure c hraise =>
      have raised (d : ErrCode) (hb : c.code = d.code) : mayRaise i d = true := (errCode_code_inj c d).mp hb ▸ hraise
      refine ⟨_, c.code, hr, rfl, errCode_code_le c, fun hb => (mayRaise_invalidMagic i).mp (raised _ hb),
        fun hb => (mayRaise_incorrectAlignment i).mp (raised _ hb),
        fun hb => (mayRaise_notEnoughData i).mp (raised _ hb),
        fun hb => (mayRaise_invalidCrc i).mp (raised _ hb), fun hb => (mayRaise_incomplete i).mp (raised _ hb),
        fun hb => (mayRaise_unknownMsgId i).mp (raised _ hb), fun hb => ?_, fun hb => ?_⟩
      · obtain rfl := (mayRaise_outOfMemory i).mp (raised _ hb)
        exact ⟨rfl, (heffect.rxSt_of_collect_error hr).1 ((errCode_code_inj c .outOfMemory).mp hb)⟩
      · obtain rfl := (mayRaise_messageNotReady i).mp (raised _ hb)
        exact ⟨rfl, (heffect.rxSt_of_collect_error hr).2 ((errCode_code_inj c .messageNotReady).mp hb)⟩

end Sys2Proof.Machine

/-! PROOFS. MemWrite and MemRead (R12, R60, R63): O23. -/

namespace Sys2Proof.Machine

theorem State.setMem_eq (s : State) (m : Memory) (B : Buf) :
    s.setMem m B =
      { s with acc := (s.setMem m B).acc, rxd := (s.setMem m B).rxd, scr := (s.setMem m B).scr,
               encb := (s.setMem m B).encb } := by
  cases B <;> rfl

/-- Settles O23: inside the buffer by the laws of `Memory.setMany`, outside it both primitives check the range first. -/
theorem bufferWriteThenRead : Obligations.BufferWriteThenRead := by
  refine fun s B a n xs => ⟨fun hrange hn => ?inside, fun hrange => ?outside⟩
  case inside =>
    subst hn
    have hwrite := State.memWrite_ok s B a xs hrange
    refine ⟨_, hwrite, State.memRead_setMem_setMany s B _ a xs hrange, fun k hk => ?_,
      fun C hC => State.setMem_mem_of_ne s _ B C hC, fun hwf => ?_, State.setMem_eq s _ B⟩
    · rw [State.setMem_mem_self]
      exact hk.elim (Memory.get_setMany_below xs _) (Memory.get_setMany_above xs _)
    · rw [State.setMem_mem_self, State.setMem_size]
      exact Memory.wf_setMany _ xs _ a hrange hwf
  case outside =>
    exact ⟨if_neg fun h => by omega, if_neg (by omega)⟩

end Sys2Proof.Machine

/-! PROOFS. The codecs against each other (R104, R164, R178, R203, R205, R248) and the CRC's reference vectors (R146):
O27, O30, O31, O34, O35 and O39. -/

namespace Sys2Proof.Machine

/-! The escape codec -/

theorem exec_escEncode_fits {p : Plain} {cap : Nat} (h : 2 * p.bytes.length ≤ cap) (s : State) :
    exec (.escEncode p cap) s = .next (s.respond (.success (some (.encoded ⟨escBytes p.bytes⟩)))) := by
  rw [exec_escEncode, if_neg (by omega)]

theorem exec_escDecode_fits {e : Encoded} {cap : Nat} (h : e.bytes.length ≤ cap) (s : State) :
    exec (.escDecode e cap) s = .next (s.respond (.success (some (.plain ⟨unescBytes false e.bytes⟩)))) := by
  rw [exec_escDecode, if_neg (by omega)]

theorem unescBytes_escBytes (xs : List Byte) : unescBytes false (escBytes xs) = xs := by
  simpa using unescBytes_escBytes_append xs []

/-- Settles O30: both capacities suffice, and the decoder inverts the encoder. -/
theorem escDecodeInvertsEscEncode : Obligations.EscDecodeInvertsEscEncode := by
  intro x c₁ s h₁
  refine ⟨_, exec_escEncode_fits h₁ s, fun c₂ t h₂ => ?_⟩
  rw [exec_escDecode_fits h₂, unescBytes_escBytes]
  rfl

/-- Every ESCAPE begins a pair: one of 0, 1, 2 follows it, and no ESCAPE stands before it (R104). -/
def EscapesPaired (ys : List Byte) : Prop :=
  ∀ pre post, ys = pre ++ escapeByte :: post →
    pre.getLast? ≠ some escapeByte ∧ ∃ c rest, post = c :: rest ∧ (c = 0 ∨ c = 1 ∨ c = 2)

theorem EscapesPaired.nil : EscapesPaired [] := by
  intro pre post h
  simp at h

theorem EscapesPaired.cons_other {b : Byte} {ys : List Byte} (hb : b ≠ escapeByte) (h : EscapesPaired ys) :
    EscapesPaired (b :: ys) := by
  intro pre post hsplit
  cases pre with
  | nil => exact absurd (List.cons.inj hsplit).1 hb
  | cons p pre =>
    obtain ⟨rfl, hys⟩ := List.cons.inj hsplit
    obtain ⟨hlast, hpair⟩ := h pre post hys
    refine ⟨?_, hpair⟩
    rw [List.getLast?_cons]
    cases hpre : pre.getLast? with
    | none => simpa using hb
    | some c => simpa [hpre] using hlast

theorem EscapesPaired.cons_pair {c : Byte} {ys : List Byte} (hc : c = 0 ∨ c = 1 ∨ c = 2) (h : EscapesPaired ys) :
    EscapesPaired (escapeByte :: c :: ys) := by
  have hne : c ≠ escapeByte := by rcases hc with rfl | rfl | rfl <;> decide
  intro pre post hsplit
  cases pre with
  | nil => exact ⟨nofun, c, ys, (List.cons.inj hsplit).2.symm, hc⟩
  | cons p pre =>
    obtain ⟨rfl, htail⟩ := List.cons.inj hsplit
    obtain ⟨hlast, hpair⟩ := h.cons_other hne pre post htail
    refine ⟨?_, hpair⟩
    cases pre with
    | nil => exact absurd (List.cons.inj htail).1 hne
    | cons q pre => rwa [List.getLast?_cons_cons]

theorem escapesPaired_escBytes (xs : List Byte) : EscapesPaired (escBytes xs) := by
  induction xs with
  | nil => exact .nil
  | cons b xs ih =>
    rw [escBytes, escByte]
    by_cases hb : isReserved b = true
    · rw [if_pos hb]
      refine ih.cons_pair ?_
      rcases (isReserved_iff b).mp hb with rfl | rfl | rfl <;> decide
    · rw [if_neg hb]
      refine ih.cons_other fun e => hb ((isReserved_iff b).mpr (.inr (.inr e)))

theorem isReserved_eq_decide (b : Byte) : isReserved b = decide (b = 0xFC ∨ b = 0xFD ∨ b = 0xFE) := by
  rw [Bool.eq_iff_iff, isReserved_iff, decide_eq_true_iff]
  tauto

/-- Each reserved byte costs one byte more (R164). -/
theorem escBytes_length (xs : List Byte) :
    (escBytes xs).length = xs.length + (xs.filter fun b => b = 0xFC ∨ b = 0xFD ∨ b = 0xFE).length := by
  simp only [← isReserved_eq_decide]
  induction xs with
  | nil => rfl
  | cons b xs ih =>
    rw [escBytes, List.length_append, escByte_length, ih, List.length_cons, List.filter_cons]
    split_ifs
    · rw [List.length_cons]; omega
    · omega

/-- Settles O31: the answer is the encoder's output, for which each of the three was proved. -/
theorem escapedRegionHoldsNoMarker : Obligations.EscapedRegionHoldsNoMarker := by
  intro x cap s t y h hresp
  rw [exec_escEncode] at h
  split at h <;> cases h
  · cases hresp
  · cases hresp
    exact ⟨escBytes_no_marker x.bytes, escapesPaired_escBytes x.bytes, escBytes_length x.bytes⟩

/-! FRM_DESERIALIZE -/

theorem Cursor.bytes_whole (xs : List Byte) : (Cursor.whole xs).bytes = .ok xs :=
  (Cursor.bytes_eq_ok_iff _ _).mpr ⟨by simp [Cursor.whole], by simp [Cursor.whole]⟩

/-- Through the views each of R201's checks sees the byte or bytes the index procedure sees. -/
theorem frmDeserializeByViews_form (first idLo idHi crcLo crcHi last : Byte) (p : List Byte) :
    frmDeserializeByViews ([first, idLo, idHi] ++ p ++ [crcLo, crcHi, last]) =
      frmDeserialize ([first, idLo, idHi] ++ p ++ [crcLo, crcHi, last]) := by
  have hd : [first, idLo, idHi] ++ p ++ [crcLo, crcHi, last] =
      ([first, idLo, idHi] ++ p ++ [crcLo, crcHi]) ++ [last] := by
    simp
  have hsize : ¬ (Cursor.whole ([first, idLo, idHi] ++ p ++ [crcLo, crcHi, last])).size < 6 := by
    simp [Cursor.size, Cursor.whole]
  have hbytes := Cursor.bytes_whole ([first, idLo, idHi] ++ p ++ [crcLo, crcHi, last])
  rw [hd] at hbytes
  obtain ⟨v₁, hlast, hbytes₁⟩ := Cursor.dropOne_of_bytes hbytes
  obtain ⟨v₂, hcrc, hbytes₂⟩ := Cursor.dropTwo_of_bytes hbytes₁
  obtain ⟨v₃, hfirst, hbytes₃⟩ := Cursor.takeOne_of_bytes (rest := idLo :: idHi :: p) hbytes₂
  obtain ⟨v₄, hid, hbytes₄⟩ := Cursor.takeTwo_of_bytes hbytes₃
  rw [← hd] at hlast
  rw [frmDeserialize_form, le16_eq_append, le16_eq_append]
  simp only [frmDeserializeByViews, hsize, if_false, hlast, hcrc, hbytes₂, hfirst, hid, hbytes₄, Except.bind,
    Except.map]
  rfl

/-- Settles O34: below six bytes both stop at the length check, from six on both make the same checks. -/
theorem deserializeByViewPrimitivesAgrees : Obligations.DeserializeByViewPrimitivesAgrees := by
  refine fun d => ⟨?_, frmDeserialize_ne_fault d⟩
  rcases Nat.lt_or_ge d.length 6 with h | h
  · rw [frmDeserialize_short d h, frmDeserializeByViews]
    exact if_pos h
  · obtain ⟨first, idLo, idHi, crcLo, crcHi, last, p, rfl⟩ := exists_frame_form d h
    exact frmDeserializeByViews_form ..

/-- Settles O35: the serialized frame is of the form that deserializes. -/
theorem frmDeserializeInvertsFrmSerialize : Obligations.FrmDeserializeInvertsFrmSerialize := by
  intro id p cap s hcap
  refine ⟨_, (exec_frmSerialize id p cap s).trans (if_neg (by omega)), frame_length id p.bytes, fun t => ?_⟩
  rw [exec_frmDeserialize, frmDeserialize_frame]
  rfl

/-! The registry and the CRC -/

/-- Settles O39: the payload the encoder answers decodes to the message under its own id. -/
theorem regDecodeInvertsRegEncode : Obligations.RegDecodeInvertsRegEncode := by
  intro m s h
  refine ⟨_, exec_regEncodePayload m s, fun t ht => ?_⟩
  exact exec_regDecodePayload_of_ok (regDecode_regEncode m _ (ht ▸ h))

/-- Settles O27: the CRC of each of the four inputs, by evaluation. -/
theorem crc16ReferenceVectors : Obligations.Crc16ReferenceVectors := by
  unfold Obligations.Crc16ReferenceVectors
  decide

end Sys2Proof.Machine

/-! PROOFS. A TX_SEND that fits (R261, R263, R265, R103, R105): what it leaves in its buffers and how many bytes it
emits; O40 and O42. -/

namespace Sys2Proof.Machine

theorem exec_txSend_fits {m : Msg} {s : State} (hr : registered s.cfg.regTx (msgId m) = true)
    (hscr : (regEncode m).length + 6 ≤ s.cfg.txCap) (hencb : 2 * ((regEncode m).length + 2) ≤ s.cfg.txEncCap) :
    exec (.txSend m) s = .next ((txSent m s).respond (.success none)) := by
  rw [exec_txSend, if_neg (by simp [hr]), if_neg (by omega)]

/-- The escaped span, each byte's encoding written out (R161). -/
theorem escBytes_eq_flatMap_ite (xs : List Byte) :
    escBytes xs = xs.flatMap fun b => if b = 0xFD ∨ b = 0xFE ∨ b = 0xFC then [0xFC, b - 0xFC] else [b] := by
  rw [escBytes_eq_flatMap, funext escByte_eq_ite]

/-! What `txSent` holds -/

theorem txSent_txOut (m : Msg) (s : State) : (txSent m s).txOut = s.txOut ++ wire (msgId m) (regEncode m) := rfl

theorem txSent_scr (m : Msg) (s : State) : (txSent m s).scr =
    s.scr.setMany 0 (frameBody (msgId m) (regEncode m) ++ frameTrailer (frameCrc (msgId m) (regEncode m))) := rfl

theorem txSent_encb (m : Msg) (s : State) : (txSent m s).encb =
    s.encb.setMany 0 (escBytes ([loByte (msgId m), hiByte (msgId m)] ++ regEncode m)) := rfl

theorem txSent_memRead_scr {m : Msg} {s : State} (h : (regEncode m).length + 6 ≤ s.cfg.txCap) :
    (txSent m s).memRead .scr 0 ((regEncode m).length + 6) =
      .ok (frameBody (msgId m) (regEncode m) ++ frameTrailer (frameCrc (msgId m) (regEncode m))) := by
  rw [← frame_length (msgId m)] at h ⊢
  rw [txSent, State.emit_memRead, State.memRead_setMem_of_ne _ .encb .scr _ _ _ (by decide)]
  exact State.memRead_setMem_setMany s .scr _ 0 _ (by simpa [State.size] using h)

theorem txSent_memRead_encb {m : Msg} {s : State} (h : 2 * ((regEncode m).length + 2) ≤ s.cfg.txEncCap) :
    (txSent m s).memRead .encb 0 (escBytes ([loByte (msgId m), hiByte (msgId m)] ++ regEncode m)).length =
      .ok (escBytes ([loByte (msgId m), hiByte (msgId m)] ++ regEncode m)) := by
  have hlen := escaped_span_length_le (msgId m) (regEncode m)
  rw [txSent, State.emit_memRead]
  exact State.memRead_setMem_setMany _ .encb _ 0 _ (by rw [State.setMem_size]; simp only [State.size]; omega)

/-- The state a TX_SEND that fits leaves differs in SCR, ENCB, the output and the response alone. -/
theorem txSent_respond_eq (m : Msg) (s : State) (q : Response) :
    (txSent m s).respond q =
      { s with scr := (txSent m s).scr, encb := (txSent m s).encb, txOut := (txSent m s).txOut, resp := some q } := rfl

/-- Settles O40: the outcome of `exec_txSend` that fits, its two buffers read back and the bytes beyond them kept. -/
theorem txSendEmitsTheWireStream : Obligations.TxSendEmitsTheWireStream := by
  intro m s id p body trailer e hr hscr hencb
  have he : escBytes ([loByte id, hiByte id] ++ p) = e := escBytes_eq_flatMap_ite _
  refine ⟨_, exec_txSend_fits hr hscr hencb, ?_, ?_, ?_, fun a ha => ?_, fun a ha => ?_, txSent_respond_eq m s _⟩
  · rw [← he]
    exact txSent_txOut m s
  · rw [State.respond_memRead]
    exact txSent_memRead_scr hscr
  · rw [← he, State.respond_memRead]
    exact txSent_memRead_encb hencb
  · rw [State.respond_scr, txSent_scr]
    exact Memory.get_setMany_above _ _ (by rw [Nat.zero_add, frame_length]; exact ha)
  · rw [State.respond_encb, txSent_encb]
    exact Memory.get_setMany_above _ _ (by rw [Nat.zero_add]; exact he ▸ ha)

theorem wire_length (id : U16) (p : List Byte) :
    (wire id p).length = p.length + 6 +
      (([loByte id, hiByte id] ++ p).filter fun b => b = 0xFC ∨ b = 0xFD ∨ b = 0xFE).length := by
  simp only [wire, List.length_append, escBytes_length, frameTrailer, List.length_cons, List.length_nil]
  omega

theorem txSend_success_iff (m : Msg) (s t : State) :
    exec (.txSend m) s = .next t ∧ t.resp = okResp none ↔
      (registered s.cfg.regTx (msgId m) = true ∧ (regEncode m).length + 6 ≤ s.cfg.txCap ∧
        2 * ((regEncode m).length + 2) ≤ s.cfg.txEncCap) ∧ t = (txSent m s).respond (.success none) := by
  constructor
  · rintro ⟨h, hresp⟩
    rw [exec_txSend] at h
    split_ifs at h with hr hsmall <;> cases h
    · cases hresp
    · cases hresp
    · exact ⟨⟨by simpa using hr, by omega, by omega⟩, rfl⟩
  · rintro ⟨⟨hr, hscr, hencb⟩, rfl⟩
    exact ⟨exec_txSend_fits hr hscr hencb, rfl⟩

/-- Settles O42: only the outcome that fits answers NO_ERROR, and it emits the wire stream. -/
theorem txSendSucceedsExactlyWhenItFits : Obligations.TxSendSucceedsExactlyWhenItFits := by
  refine fun m s => ⟨?_, fun t h hresp => ?_⟩
  · simp only [txSend_success_iff, exists_and_left, exists_eq, and_true]
  · obtain ⟨-, rfl⟩ := (txSend_success_iff m s t).mp ⟨h, hresp⟩
    rw [State.respond_txOut, txSent_txOut, List.length_append, wire_length, ← Nat.add_assoc, ← Nat.add_assoc]
    rfl

end Sys2Proof.Machine

/-! PROOFS. The borrowed slice and the receiver over several commands (R356, R286, R291 to R294): who may read the
slice, a buffer that overflows, and a frame collected into RXD; O22, O44, O47, O49. -/

namespace Sys2Proof.Machine

/-! Reading the borrowed slice -/

theorem State.readSlice_of_none {s : State} (h : s.slice = none) (k : Nat) : s.readSlice k = .error .expiredSlice := by
  simp only [State.readSlice, h]

/-- The host's read sees the slice, RX_CAP and RXD alone, where the slice lies in RXD. -/
theorem State.readSlice_congr {s t : State} (hslice : t.slice = s.slice) (hcfg : t.cfg = s.cfg) (hrxd : t.rxd = s.rxd)
    (hbuf : ∀ v, s.slice = some v → v.buf = .rxd) (k : Nat) : t.readSlice k = s.readSlice k := by
  cases h : s.slice with
  | none => rw [State.readSlice_of_none h, State.readSlice_of_none (hslice.trans h)]
  | some v =>
    simp only [State.readSlice, hslice, h, hbuf v h, State.size, State.mem, hcfg, hrxd]

theorem Effect.slice_of_put {b : Byte} {s t : State} (h : Effect s (.rxPut b) t) : t.slice = none := by
  cases h with
  | responds hrx => cases hrx
  | _ => rfl

theorem Effect.slice_of_reset {s t : State} (h : Effect s .rxReset t) : t.slice = none := by
  cases h with
  | responds hrx => cases hrx
  | receiverReset => rfl

/-- RX_COLLECT leaves a slice only where it answers SpectrumData (R294, R356). -/
theorem Effect.slice_of_collect {s t : State} (h : Effect s .rxCollect t)
    (hresp : ∀ a v, t.resp ≠ okResp (some (.msg (.spectrumData a) v))) : t.slice = none := by
  cases h with
  | responds hrx => cases hrx
  | @collected p fr m =>
    cases m with
    | spectrumData a => exact absurd rfl (hresp a _)
    | _ => rfl
  | _ => rfl

/-- Settles O22: the commands that keep the slice keep all that a read of it sees; the others clear it. -/
theorem sliceValidityWindow : Obligations.SliceValidityWindow := by
  refine ⟨fun i s t hs hi h => ?_, fun b s t h => State.readSlice_of_none (effect_of_exec h).slice_of_put,
    fun s t h => State.readSlice_of_none (effect_of_exec h).slice_of_reset,
    fun s t h hresp => State.readSlice_of_none ((effect_of_exec h).slice_of_collect hresp),
    fun s => State.readSlice_of_none rfl⟩
  obtain ⟨-, -, hslice, -, hrxd⟩ := (effect_of_exec h).sameReceiver hi
  exact State.readSlice_congr hslice (effect_of_exec h).cfg_eq hrxd fun v hv => (hs.slice v hv).1

/-! More bytes than the buffer holds (R286) -/

theorem execSeq_putAll_cons {b : Byte} {s t : State} (h : exec (.rxPut b) s = .next t) (bs : List Byte) :
    execSeq (putAll (b :: bs)) s = execSeq (putAll bs) t :=
  execSeq_cons_of_next h _

/-- In OVERFLOW every byte is dropped (R327). -/
theorem execSeq_putAll_overflow (bs : List Byte) {s : State} (hst : s.rxSt = .overflow) :
    ∃ t, execSeq (putAll bs) s = .next t ∧ t.rxSt = .overflow ∧ t.rxWr = s.rxWr := by
  induction bs generalizing s with
  | nil => exact ⟨s, rfl, hst, rfl⟩
  | cons b bs ih =>
    rw [execSeq_putAll_cons (exec_rxPut_overflow b hst)]
    exact ih (s := (s.setSlice none).respond (.success none)) hst

theorem exec_rxPut_full (b : Byte) {s : State} (hst : s.rxSt ≠ .overflow) (hfull : s.rxWr = s.cfg.rxCap) :
    exec (.rxPut b) s = .next (((s.setSlice none).setRx .overflow s.rxWr).respond (.success none)) := by
  rw [exec_rxPut b s hfull.le, if_neg hst, if_pos hfull]

theorem exec_rxPut_room (b : Byte) {s : State} (hst : s.rxSt ≠ .overflow) (hroom : s.rxWr < s.cfg.rxCap) :
    exec (.rxPut b) s = .next ((((s.setSlice none).setMem (s.acc.set s.rxWr b) .acc).setRx (rxNext s.rxSt b)
      (s.rxWr + 1)).respond (.success none)) := by
  rw [exec_rxPut b s hroom.le, if_neg hst, if_neg hroom.ne]

/-- The bytes that fit are stored, the next one finds the buffer full, and the rest are dropped. -/
theorem execSeq_putAll_beyond (bs : List Byte) {s : State} (hst : s.rxSt ≠ .overflow) (hwr : s.rxWr ≤ s.cfg.rxCap)
    (hlen : s.cfg.rxCap - s.rxWr < bs.length) :
    ∃ t, execSeq (putAll bs) s = .next t ∧ t.rxSt = .overflow ∧ t.rxWr = s.cfg.rxCap := by
  induction bs generalizing s with
  | nil => exact absurd hlen (by simp)
  | cons b bs ih =>
    rw [List.length_cons] at hlen
    rcases hwr.eq_or_lt with hfull | hroom
    · rw [execSeq_putAll_cons (exec_rxPut_full b hst hfull), ← hfull]
      exact execSeq_putAll_overflow bs (s := ((s.setSlice none).setRx .overflow s.rxWr).respond (.success none)) rfl
    · rw [execSeq_putAll_cons (exec_rxPut_room b hst hroom)]
      refine ih (s := (((s.setSlice none).setMem (s.acc.set s.rxWr b) .acc).setRx (rxNext s.rxSt b)
        (s.rxWr + 1)).respond (.success none)) (rxNext_ne_overflow _ _ hst) ?_ ?_
      · exact hroom
      · show s.cfg.rxCap - (s.rxWr + 1) < bs.length
        omega

/-- Settles O44: the bytes end in OVERFLOW, which RX_COLLECT drains with OUT_OF_MEMORY. -/
theorem bytesBeyondCapacityOverflow : Obligations.BytesBeyondCapacityOverflow := by
  intro bs s hst hwr hlen
  obtain ⟨t, hseq, hover, hfull⟩ := execSeq_putAll_beyond bs hst hwr hlen
  exact ⟨t, _, hseq, hover, hfull, exec_rxCollect_overflow hover, rfl⟩

/-! A frame collected into RXD -/

theorem escDecode_eq_ok_iff (enc : List Byte) (cap : Nat) (p : List Byte) :
    escDecode enc cap = .ok p ↔ enc.length ≤ cap ∧ unescBytes false enc = p := by
  rw [escDecode]
  split_ifs with h
  · exact iff_of_false nofun (by omega)
  · rw [Except.ok.injEq, and_iff_right (by omega)]

theorem exec_rxCollect_of_pipeline_ok {s : State} {stream P : List Byte} {m : Msg} (hst : s.rxSt = .frameReady)
    (hread : s.memRead .acc 0 s.rxWr = .ok stream)
    (hpipe : rxPipeline stream ((s.setSlice none).setRx .idle 0) =
      .ok (((s.setSlice none).setRx .idle 0).setMem (s.rxd.setMany 0 P) .rxd, m, borrowOf m P.length)) :
    exec .rxCollect s = .next (collectedState s P m) := by
  simp [exec_rxCollect, hst, rxCollectReady, hread, hpipe, collectedState]

theorem rxPipeline_of_stages {s : State} {stream F P : List Byte} {o l : Nat} {fr : Frame} {m : Msg}
    (hextract : frmExtract stream = .ok (o, l, F)) (hesc : escDecode F s.cfg.rxCap = .ok P)
    (hframe : frmDeserialize P = .ok fr) (hmsg : regDecode fr.msgId fr.payload.bytes s.cfg.regRx = .ok m) :
    rxPipeline stream s = .ok (s.setMem (s.rxd.setMany 0 P) .rxd, m, borrowOf m P.length) := by
  simp [rxPipeline_eq, hextract, hesc, hframe, hmsg, Except.bind, Except.map]

/-- Settles O47: the pipeline writes the decoded frame at the start of RXD, and the receiver was reset before it ran. -/
theorem rxCollectReturnsTheMessage : Obligations.RxCollectReturnsTheMessage := by
  intro s S F P o l fr m hst hread hextract hesc hframe hmsg borrowed
  have hlen : P.length ≤ s.cfg.rxCap := by
    obtain ⟨hF, rfl⟩ := (escDecode_eq_ok_iff _ _ _).mp hesc
    exact (unescBytes_length_le false F).trans hF
  have hpipe := rxPipeline_of_stages (s := (s.setSlice none).setRx .idle 0) hextract hesc hframe hmsg
  refine ⟨_, exec_rxCollect_of_pipeline_ok hst hread hpipe, ?_, fun a ha => ?_, rfl⟩
  · rw [collectedState, State.respond_memRead, State.setSlice_memRead]
    exact State.memRead_setMem_setMany _ .rxd _ 0 P (by simpa [State.size] using hlen)
  · exact Memory.get_setMany_above P _ (by omega)

/-! The amplitudes of a collected SpectrumData -/

theorem frame_form_of_deserialize {d : List Byte} {fr : Frame} (h : frmDeserialize d = .ok fr) :
    ∃ head trailer : List Byte, d = head ++ fr.payload.bytes ++ trailer ∧ head.length = 3 ∧ trailer.length = 3 := by
  rcases Nat.lt_or_ge d.length 6 with hshort | hlong
  · rw [frmDeserialize_short d hshort] at h
    cases h
  · obtain ⟨first, idLo, idHi, crcLo, crcHi, last, p, rfl⟩ := exists_frame_form d hlong
    rw [frmDeserialize_form] at h
    split_ifs at h
    cases h
    exact ⟨[first, idLo, idHi], [crcLo, crcHi, last], rfl, rfl, rfl⟩

theorem regDecode_spectrumData_bytes {id : U16} {b a : List Byte} {reg : RegSet}
    (h : regDecode id b reg = .ok (.spectrumData a)) : a = b := by
  rcases regDecode_cases id b reg with h' | h' | ⟨m, h', -, -, hbytes⟩ <;> rw [h'] at h <;> cases h
  exact hbytes a rfl

/-! The state after a collected SpectrumData: its frame is `head ++ a ++ trailer`, with START and the id before the
amplitudes, the CRC and END behind them. -/
section
variable {head a trailer : List Byte} (hhead : head.length = 3) (htrailer : trailer.length = 3)
include hhead htrailer

theorem borrowOf_spectrumData :
    borrowOf (.spectrumData a) (head ++ a ++ trailer).length = some { buf := .rxd, off := 3, len := a.length } := by
  have hlen : (head ++ a ++ trailer).length - 6 = a.length := by
    rw [List.length_append, List.length_append]
    omega
  rw [borrowOf, hlen]

theorem readSlice_collectedState {s : State} (hlen : (head ++ a ++ trailer).length ≤ s.cfg.rxCap) (k : Nat) :
    (collectedState s (head ++ a ++ trailer) (.spectrumData a)).readSlice k =
      if h : k < a.length then .ok a[k] else .error .outOfRange := by
  have hslice : (collectedState s (head ++ a ++ trailer) (.spectrumData a)).slice =
      some { buf := .rxd, off := 3, len := a.length } := borrowOf_spectrumData hhead htrailer
  have hsize : (collectedState s (head ++ a ++ trailer) (.spectrumData a)).size .rxd = s.cfg.rxCap := rfl
  have hrxd : (collectedState s (head ++ a ++ trailer) (.spectrumData a)).mem .rxd =
      s.rxd.setMany 0 (head ++ a ++ trailer) := rfl
  rw [List.length_append, List.length_append] at hlen
  simp only [State.readSlice, hslice, hsize, hrxd]
  by_cases hk : k < a.length
  · have hget := Memory.get_setMany_inside (head ++ a ++ trailer) s.rxd 0 (3 + k) (by simp; omega)
    have hbyte : (head ++ a ++ trailer)[3 + k]'(by simp; omega) = a[k] := by
      rw [List.getElem_append_left (by simp; omega), List.getElem_append_right (by omega)]
      simp [hhead]
    rw [Nat.zero_add, hbyte] at hget
    rw [if_neg (by omega), if_neg (by omega), dif_pos hk, hget]
  · rw [if_pos (by omega), dif_neg hk]

end

/-- Settles O49: only a collected message answers SpectrumData, its payload is the amplitudes, and the slice lies on
them in RXD. -/
theorem collectedSliceReadsTheAmplitudes : Obligations.CollectedSliceReadsTheAmplitudes := by
  intro s t a v h hresp
  cases effect_of_exec h with
  | responds hrx => cases hrx
  | drained | notReady | stageFailed => cases hresp
  | @collected p fr m _ hframe hmsg hlen =>
    cases hresp
    obtain ⟨head, trailer, rfl, hhead, htrailer⟩ := frame_form_of_deserialize hframe
    obtain rfl := regDecode_spectrumData_bytes hmsg
    exact ⟨borrowOf_spectrumData hhead htrailer, rfl, readSlice_collectedState hhead htrailer hlen⟩

end Sys2Proof.Machine

/-! PROOFS. From the sender's bytes to the collected message (R299, R300, R357): which content the receiver cuts out of
a stream, what the stages make of it, and the wire stream by the classes of its CRC bytes; O51 and O52. -/

namespace Sys2Proof.Machine

/-! Collecting a stream -/

/-- What the last two stages make of a decoded frame (R293). -/
def decodeFrame (reg : RegSet) (d : List Byte) : Res Msg :=
  (frmDeserialize d).bind fun fr => regDecode fr.msgId fr.payload.bytes reg

/-- The decoded frame of a content that stands between START and END. -/
def unescapedFrame (content : List Byte) : List Byte := startByte :: unescBytes false (content ++ [endByte])

/-- The stream holds a frame with this content as the first that the scan completes (R211). -/
def FrameIn (stream content : List Byte) : Prop :=
  startByte ∉ content ∧ endByte ∉ content ∧ ∃ noise dropped rest,
    startByte ∉ noise ∧ endByte ∉ dropped ∧ stream = noise ++ (dropped ++ startByte :: (content ++ endByte :: rest))

/-- The state holds the response that reports `r`. -/
def Reports (t : State) (r : Res Msg) : Prop :=
  (∀ c, r = .error (.err c) → t.resp = errResp c) ∧ ∀ m, r = .ok m → ∃ v, t.resp = okResp (some (.msg m v))

theorem unescBytes_content (content : List Byte) :
    unescBytes false (startByte :: (content ++ [endByte])) = unescapedFrame content :=
  unescBytes_other false startByte _ (by decide)

theorem rxPipeline_frame {stream content : List Byte} (h : FrameIn stream content) {s : State}
    (hlen : stream.length ≤ s.cfg.rxCap) :
    rxPipeline stream s = (decodeFrame s.cfg.regRx (unescapedFrame content)).map fun m =>
      (s.setMem (s.rxd.setMany 0 (unescapedFrame content)) .rxd, m, borrowOf m (unescapedFrame content).length) := by
  obtain ⟨hs, he, noise, dropped, rest, hn, hd, rfl⟩ := h
  have hesc : escDecode (startByte :: (content ++ [endByte])) s.cfg.rxCap = .ok (unescapedFrame content) := by
    refine (escDecode_eq_ok_iff _ _ _).mpr ⟨?_, unescBytes_content content⟩
    simp only [List.length_append, List.length_cons, List.length_nil] at hlen ⊢
    omega
  rw [rxPipeline_eq, frmExtract_frame noise dropped content rest hn hd hs he]
  simp only [Except.bind, hesc, decodeFrame]
  cases frmDeserialize (unescapedFrame content) <;> rfl

/-- In FRAME_READY a collect ends with the receiver reset, whether a stage fails or not (R292). -/
theorem Effect.receiver_of_ready {s t : State} (h : Effect s .rxCollect t) (hst : s.rxSt = .frameReady) :
    t.rxSt = .idle ∧ t.rxWr = 0 := by
  cases h with
  | responds hrx => cases hrx
  | notReady h => rw [hst] at h; cases h <;> contradiction
  | _ => exact ⟨rfl, rfl⟩

/-- A collect reports what the stages make of the content the scan cuts out. -/
theorem reports_of_collect {s t : State} {stream content : List Byte} (hst : s.rxSt = .frameReady)
    (hread : s.memRead .acc 0 s.rxWr = .ok stream) (hlen : stream.length ≤ s.cfg.rxCap)
    (hexec : exec .rxCollect s = .next t) (hcontent : FrameIn stream content) :
    Reports t (decodeFrame s.cfg.regRx (unescapedFrame content)) := by
  have hpipe := rxPipeline_frame hcontent (s := (s.setSlice none).setRx .idle 0) hlen
  constructor
  · intro c hc
    have hfail := exec_rxCollect_of_pipeline_error hst hread (hpipe.trans (congrArg _ hc))
    rw [hfail] at hexec
    cases hexec
    rfl
  · intro m hm
    have hcollected := exec_rxCollect_of_pipeline_ok hst hread (hpipe.trans (congrArg _ hm))
    rw [hcollected] at hexec
    cases hexec
    exact ⟨_, rfl⟩

/-- A stream in which an END follows a START, put into a fresh receiver and collected. -/
theorem collect_stream {s : State} (hst : s.rxSt = .idle) (hwr : s.rxWr = 0) {stream pre mid post : List Byte}
    (hform : stream = pre ++ startByte :: (mid ++ endByte :: post)) (hlen : stream.length ≤ s.cfg.rxCap) :
    ∃ t, execSeq (putAll stream ++ [.rxCollect]) s = .next t ∧ t.rxSt = .idle ∧ t.rxWr = 0 ∧ t.txOut = s.txOut ∧
      ∀ content, FrameIn stream content → Reports t (decodeFrame s.cfg.regRx (unescapedFrame content)) := by
  have hempty : s.memRead .acc 0 s.rxWr = .ok [] := by rw [hwr]; simp [State.memRead, Memory.getMany]
  obtain ⟨u, hput, -, hread, hready, hcfg, hout⟩ := execSeq_putAll stream [] s (by simp [hst]) hempty (by omega)
  rw [hst, hform, foldl_rxNext_frame] at hready
  rw [List.nil_append] at hread
  obtain ⟨t, hexec, heffect⟩ := exec_completes .rxCollect ⟨_, hread⟩
  obtain ⟨hidle, hzero⟩ := heffect.receiver_of_ready hready
  obtain ⟨houtᵤ, -, -⟩ := heffect.sameSender nofun
  refine ⟨t, ?_, hidle, hzero, houtᵤ.trans hout, fun content hcontent => ?_⟩
  · rw [execSeq_append _ _ _ _ hput, execSeq_cons_of_next hexec]
    rfl
  · rw [← hcfg] at hlen ⊢
    exact reports_of_collect hready hread hlen hexec hcontent

/-! Decoding a frame -/

theorem decodeFrame_short {d : List Byte} (h : d.length < 6) (reg : RegSet) :
    decodeFrame reg d = .error (.err .notEnoughData) := by
  rw [decodeFrame, frmDeserialize_short d h]
  rfl

/-- The last byte is checked first (R202). -/
theorem decodeFrame_not_end {d : List Byte} {b : Byte} (hlen : 5 ≤ d.length) (hb : b ≠ endByte) (reg : RegSet) :
    decodeFrame reg (d ++ [b]) = .error (.err .invalidMagic) := by
  obtain ⟨first, idLo, idHi, crcLo, crcHi, last, p, hd⟩ := exists_frame_form (d ++ [b]) (by simp; omega)
  have hlast : b = last := by
    have hgetLast := congrArg List.getLast? hd
    rw [List.getLast?_append, List.getLast?_append] at hgetLast
    simpa using hgetLast
  rw [decodeFrame, hd, frmDeserialize_form, if_pos (hlast ▸ hb)]
  rfl

/-- START, id, a payload, two bytes and END: the two bytes are taken for the CRC. -/
theorem decodeFrame_body (reg : RegSet) (id : U16) (p : List Byte) (crcLo crcHi : Byte) :
    decodeFrame reg (frameBody id p ++ [crcLo, crcHi, endByte]) =
      if crc16 (frameBody id p) ≠ crcHi ++ crcLo then .error (.err .invalidCrc) else regDecode id p reg := by
  rw [decodeFrame, frameBody, frmDeserialize_form, if_neg (by simp), if_neg (by simp), le16_bytes, le16_eq_append]
  split_ifs <;> rfl

/-- The frame decoded from an escaped id and payload with `tail` behind them. -/
theorem unescapedFrame_span (id : U16) (p tail : List Byte) :
    unescapedFrame (escBytes ([loByte id, hiByte id] ++ p) ++ tail) =
      frameBody id p ++ unescBytes false (tail ++ [endByte]) := by
  rw [unescapedFrame, List.append_assoc, unescBytes_escBytes_append]
  rfl

theorem frameBody_append (id : U16) (p xs : List Byte) : frameBody id (p ++ xs) = frameBody id p ++ xs :=
  (List.append_assoc ..).symm

theorem frameBody_length (id : U16) (p : List Byte) : (frameBody id p).length = p.length + 3 := by
  simp [frameBody]

/-! The wire stream, with its CRC bytes named -/

/-- The wire stream of an id and a payload with any two bytes in the place of the CRC. -/
def wireWith (id : U16) (p : List Byte) (lo hi : Byte) : List Byte :=
  startByte :: (escBytes ([loByte id, hiByte id] ++ p) ++ [lo, hi, endByte])

theorem wire_eq_wireWith (id : U16) (p : List Byte) :
    wire id p = wireWith id p (loByte (frameCrc id p)) (hiByte (frameCrc id p)) := by
  simp [wire, wireWith, frameTrailer]

theorem span_no_marker {id : U16} {p tail : List Byte} (hs : startByte ∉ tail) (he : endByte ∉ tail) :
    startByte ∉ escBytes ([loByte id, hiByte id] ++ p) ++ tail ∧
      endByte ∉ escBytes ([loByte id, hiByte id] ++ p) ++ tail := by
  have hspan := escBytes_no_marker ([loByte id, hiByte id] ++ p)
  exact ⟨List.not_mem_append (fun h => (hspan _ h).1 rfl) hs, List.not_mem_append (fun h => (hspan _ h).2 rfl) he⟩

/-- The scan takes the escaped span with what follows it up to the first END, if no START does. -/
theorem frameIn_span {id : U16} {p tail rest : List Byte} {lo hi : Byte}
    (h : [lo, hi, endByte] = tail ++ endByte :: rest) (hs : startByte ∉ tail) (he : endByte ∉ tail) :
    FrameIn (wireWith id p lo hi) (escBytes ([loByte id, hiByte id] ++ p) ++ tail) := by
  obtain ⟨hs', he'⟩ := span_no_marker (id := id) (p := p) hs he
  exact ⟨hs', he', [], [], rest, List.not_mem_nil, List.not_mem_nil, by simp [wireWith, h]⟩

/-- A START among the CRC bytes discards the span (R212). -/
theorem frameIn_restart {id : U16} {p pre tail rest : List Byte} {lo hi : Byte}
    (h : [lo, hi, endByte] = pre ++ startByte :: (tail ++ endByte :: rest)) (hpre : endByte ∉ pre)
    (hs : startByte ∉ tail) (he : endByte ∉ tail) : FrameIn (wireWith id p lo hi) tail := by
  refine ⟨hs, he, [], startByte :: (escBytes ([loByte id, hiByte id] ++ p) ++ pre), rest, List.not_mem_nil, ?_, ?_⟩
  · refine List.not_mem_cons_of_ne_of_not_mem (by decide) (List.not_mem_append (fun h => ?_) hpre)
    exact (escBytes_no_marker _ _ h).2 rfl
  · simp [wireWith, h]

/-! The sent message -/

theorem wireWith_append (id : U16) (p rest : List Byte) (lo hi : Byte) :
    wireWith id p lo hi ++ rest =
      startByte :: ((escBytes ([loByte id, hiByte id] ++ p) ++ [lo, hi]) ++ endByte :: rest) := by
  simp [wireWith]

/-- With neither CRC byte reserved the decoded frame is the one that was sent (R299). -/
theorem unescapedFrame_sent {id : U16} {p : List Byte} {lo hi : Byte} (hlo : lo ≠ escapeByte) (hhi : hi ≠ escapeByte) :
    unescapedFrame (escBytes ([loByte id, hiByte id] ++ p) ++ [lo, hi]) = frameBody id p ++ [lo, hi, endByte] := by
  rw [unescapedFrame_span, List.cons_append, unescBytes_other _ _ _ hlo, List.cons_append, unescBytes_other _ _ _ hhi]
  rfl

theorem decodeFrame_sent (reg : RegSet) (id : U16) (p : List Byte) :
    decodeFrame reg (frameBody id p ++ [loByte (frameCrc id p), hiByte (frameCrc id p), endByte]) =
      regDecode id p reg := by
  rw [decodeFrame_body, ← le16_eq_append, le16_bytes]
  exact if_neg (not_not_intro rfl)

theorem txSend_out {m : Msg} {s t : State} {out : List Byte} (h : exec (.txSend m) s = .next t)
    (hresp : t.resp = okResp none) (hout : t.txOut = s.txOut ++ out) :
    out = wire (msgId m) (regEncode m) ∧ t.cfg = s.cfg := by
  obtain ⟨-, rfl⟩ := (txSend_success_iff m s t).mp ⟨h, hresp⟩
  exact ⟨(List.append_cancel_left hout).symm, (effect_of_exec h).cfg_eq⟩

/-- The marker bytes (R101). -/
def reservedBytes : List Byte := [0xFC, 0xFD, 0xFE]

theorem not_mem_reserved {b : Byte} : b ∉ reservedBytes ↔ b ≠ escapeByte ∧ b ≠ startByte ∧ b ≠ endByte := by
  simp [reservedBytes, escapeByte, startByte, endByte]

theorem not_mem_singleton {b d : Byte} : d ∉ [b] ↔ b ≠ d := by
  simp [eq_comm]

theorem not_mem_pair {b c d : Byte} : d ∉ [b, c] ↔ b ≠ d ∧ c ≠ d := by
  simp [eq_comm]

/-- Settles O51: the scan skips what stands before the wire stream, and the stages undo the sender's. -/
theorem sentMessageIsCollected : Obligations.SentMessageIsCollected := by
  intro m s t noise dropped rest out crc hlo hhi hreg hexec hresp hout hidle hzero hnoise hdropped hlen
  obtain ⟨rfl, hcfg⟩ := txSend_out hexec hresp hout
  obtain ⟨hlo_esc, hlo_start, hlo_end⟩ := not_mem_reserved.mp hlo
  obtain ⟨hhi_esc, hhi_start, hhi_end⟩ := not_mem_reserved.mp hhi
  obtain ⟨hs, he⟩ := span_no_marker (id := msgId m) (p := regEncode m)
    (not_mem_pair.mpr ⟨hlo_start, hhi_start⟩) (not_mem_pair.mpr ⟨hlo_end, hhi_end⟩)
  have hform : noise ++ dropped ++ wire (msgId m) (regEncode m) ++ rest = (noise ++ dropped) ++ startByte ::
      ((escBytes ([loByte (msgId m), hiByte (msgId m)] ++ regEncode m) ++ [loByte crc, hiByte crc]) ++
        endByte :: rest) := by
    rw [List.append_assoc (noise ++ dropped), wire_eq_wireWith, wireWith_append]
    rfl
  obtain ⟨u, hseq, huidle, huzero, huout, hreports⟩ := collect_stream hidle hzero hform (hcfg ▸ hlen)
  have hreport := hreports _ ⟨hs, he, noise, dropped, rest, List.forall_mem_ne'.mp hnoise,
    List.forall_mem_ne'.mp hdropped, hform.trans (List.append_assoc ..)⟩
  have hdecoded := decodeFrame_sent t.cfg.regRx (msgId m) (regEncode m)
  rw [hcfg, regDecode_regEncode m _ hreg, ← hcfg] at hdecoded
  rw [unescapedFrame_sent hlo_esc hhi_esc] at hreport
  obtain ⟨v, hv⟩ := hreport.2 m hdecoded
  exact ⟨u, v, hseq, hv, huidle, huzero, huout⟩

/-! The classes of the CRC bytes (R357) -/

section
variable {reg : RegSet} {id : U16} {p : List Byte} {lo hi : Byte} {t : State}
  (hreports : ∀ content, FrameIn (wireWith id p lo hi) content → Reports t (decodeFrame reg (unescapedFrame content)))
include hreports

theorem reports_span {tail rest : List Byte} (h : [lo, hi, endByte] = tail ++ endByte :: rest) (hs : startByte ∉ tail)
    (he : endByte ∉ tail) : Reports t (decodeFrame reg (frameBody id p ++ unescBytes false (tail ++ [endByte]))) := by
  rw [← unescapedFrame_span]
  exact hreports _ (frameIn_span h hs he)

/-- What is left behind a START among the CRC bytes is too short for a frame. -/
theorem reports_restart {pre tail rest : List Byte}
    (h : [lo, hi, endByte] = pre ++ startByte :: (tail ++ endByte :: rest)) (hpre : endByte ∉ pre) (hs : startByte ∉ tail)
    (he : endByte ∉ tail) : t.resp = errResp .notEnoughData := by
  refine (hreports _ (frameIn_restart h hpre hs he)).1 _ (decodeFrame_short ?_ reg)
  have hlen := congrArg List.length h
  have hunesc := unescBytes_length_le false (tail ++ [endByte])
  simp only [List.length_append, List.length_cons, List.length_nil] at hlen hunesc
  rw [unescapedFrame, List.length_cons]
  omega

/-! One class each: the two bytes as the decoder reads them. -/

theorem reports_both_free (hlo : lo ∉ reservedBytes) (hhi : hi ∉ reservedBytes) :
    Reports t (decodeFrame reg (frameBody id p ++ [lo, hi, endByte])) := by
  obtain ⟨hlo_esc, hlo_start, hlo_end⟩ := not_mem_reserved.mp hlo
  obtain ⟨hhi_esc, hhi_start, hhi_end⟩ := not_mem_reserved.mp hhi
  have h := reports_span hreports (tail := [lo, hi]) rfl (not_mem_pair.mpr ⟨hlo_start, hhi_start⟩)
    (not_mem_pair.mpr ⟨hlo_end, hhi_end⟩)
  rwa [List.cons_append, unescBytes_other _ _ _ hlo_esc, List.cons_append, unescBytes_other _ _ _ hhi_esc] at h

theorem reports_lo_end (hlo : lo = endByte) : Reports t (decodeFrame reg (frameBody id p ++ [endByte])) := by
  subst hlo
  exact reports_span hreports (tail := []) rfl List.not_mem_nil List.not_mem_nil

theorem reports_lo_start (hlo : lo = startByte) : t.resp = errResp .notEnoughData := by
  subst hlo
  by_cases hhi_end : hi = endByte
  · exact reports_restart hreports (pre := []) (tail := []) (by rw [hhi_end]; rfl) List.not_mem_nil List.not_mem_nil
      List.not_mem_nil
  by_cases hhi_start : hi = startByte
  · exact reports_restart hreports (pre := [startByte]) (tail := []) (by rw [hhi_start]; rfl) (by decide)
      List.not_mem_nil List.not_mem_nil
  · exact reports_restart hreports (pre := []) (tail := [hi]) rfl List.not_mem_nil (not_mem_singleton.mpr hhi_start)
      (not_mem_singleton.mpr hhi_end)

theorem reports_hi_start (hlo : lo ≠ endByte) (hhi : hi = startByte) : t.resp = errResp .notEnoughData := by
  subst hhi
  exact reports_restart hreports (pre := [lo]) (tail := []) rfl (not_mem_singleton.mpr hlo) List.not_mem_nil
    List.not_mem_nil

theorem reports_hi_end (hlo : lo ∉ reservedBytes) (hhi : hi = endByte) :
    Reports t (decodeFrame reg (frameBody id p ++ [lo, endByte])) := by
  subst hhi
  obtain ⟨hlo_esc, hlo_start, hlo_end⟩ := not_mem_reserved.mp hlo
  have h := reports_span hreports (tail := [lo]) rfl (not_mem_singleton.mpr hlo_start) (not_mem_singleton.mpr hlo_end)
  rwa [List.cons_append, unescBytes_other _ _ _ hlo_esc] at h

theorem reports_escape_end (hlo : lo = escapeByte) (hhi : hi = endByte) :
    Reports t (decodeFrame reg (frameBody id p ++ [endByte + escapeByte])) := by
  subst hlo hhi
  exact reports_span hreports (tail := [escapeByte]) rfl (by decide) (by decide)

theorem reports_escape_free (hlo : lo = escapeByte) (hhi : hi ∉ reservedBytes) :
    Reports t (decodeFrame reg (frameBody id p ++ [hi + escapeByte, endByte])) := by
  subst hlo
  obtain ⟨hhi_esc, hhi_start, hhi_end⟩ := not_mem_reserved.mp hhi
  have h := reports_span hreports (tail := [escapeByte, hi]) rfl (not_mem_pair.mpr ⟨by decide, hhi_start⟩)
    (not_mem_pair.mpr ⟨by decide, hhi_end⟩)
  rwa [List.cons_append, unescBytes_escape, List.cons_append, unescBytes_other _ _ _ hhi_esc] at h

theorem reports_escape_escape (hlo : lo = escapeByte) (hhi : hi = escapeByte) :
    Reports t (decodeFrame reg (frameBody id p ++ [endByte + escapeByte])) := by
  subst hlo hhi
  exact reports_span hreports (tail := [escapeByte, escapeByte]) rfl (by decide) (by decide)

theorem reports_free_escape (hlo : lo ∉ reservedBytes) (hhi : hi = escapeByte) :
    Reports t (decodeFrame reg (frameBody id p ++ [lo, endByte + escapeByte])) := by
  subst hhi
  obtain ⟨hlo_esc, hlo_start, hlo_end⟩ := not_mem_reserved.mp hlo
  have h := reports_span hreports (tail := [lo, escapeByte]) rfl (not_mem_pair.mpr ⟨hlo_start, by decide⟩)
    (not_mem_pair.mpr ⟨hlo_end, by decide⟩)
  rwa [List.cons_append, unescBytes_other _ _ _ hlo_esc] at h

end

/-! Frames with fewer bytes than were sent -/

theorem decodeFrame_body_short {id : U16} {p tail : List Byte} (h : p.length + tail.length < 3) (reg : RegSet) :
    decodeFrame reg (frameBody id p ++ tail) = .error (.err .notEnoughData) :=
  decodeFrame_short (by rw [List.length_append, frameBody_length]; omega) reg

/-- The payload's last byte and the byte before END are taken for the CRC. -/
theorem decodeFrame_one_fewer (reg : RegSet) (id : U16) {p init : List Byte} {b0 crcHi : Byte} (hp : p = init ++ [b0]) :
    decodeFrame reg (frameBody id p ++ [crcHi, endByte]) =
      if crc16 (frameBody id init) ≠ crcHi ++ b0 then .error (.err .invalidCrc) else regDecode id init reg := by
  rw [hp, frameBody_append, List.append_assoc]
  exact decodeFrame_body reg id init b0 crcHi

/-- The payload's last two bytes are taken for the CRC. -/
theorem decodeFrame_two_fewer (reg : RegSet) (id : U16) {p init : List Byte} {b0 b1 : Byte}
    (hp : p = init ++ [b0, b1]) :
    decodeFrame reg (frameBody id p ++ [endByte]) =
      if crc16 (frameBody id init) ≠ b1 ++ b0 then .error (.err .invalidCrc) else regDecode id init reg := by
  rw [hp, frameBody_append, List.append_assoc]
  exact decodeFrame_body reg id init b0 b1

/-- An ESCAPE right before END spoils it. -/
theorem decodeFrame_spoiled_end {reg : RegSet} {id : U16} {p tail : List Byte} (h : 2 ≤ p.length + tail.length) :
    decodeFrame reg (frameBody id p ++ (tail ++ [endByte + escapeByte])) = .error (.err .invalidMagic) := by
  rw [← List.append_assoc]
  exact decodeFrame_not_end (by rw [List.length_append, frameBody_length]; omega) (by decide) reg

/-- Settles O52: one lemma per class, each with the lengths its clause tells apart. -/
theorem crcCollisionOutcomes : Obligations.CrcCollisionOutcomes := by
  intro id p s hst hwr hlen
  have hform : wire id p = [] ++ startByte :: ((escBytes ([loByte id, hiByte id] ++ p) ++
      [loByte (frameCrc id p), hiByte (frameCrc id p)]) ++ endByte :: []) := by
    simp [wire, frameTrailer]
  obtain ⟨t, hseq, hidle, hzero, -, hreports⟩ := collect_stream hst hwr hform hlen
  rw [wire_eq_wireWith] at hreports
  refine ⟨t, hseq, hidle, hzero, ?_⟩
  intro head n crc lo hi other fails
  have hfree {b : Byte} (h : other b) : b ∉ reservedBytes := by
    obtain ⟨hesc, hstart, hend⟩ := h
    exact not_mem_reserved.mpr ⟨hesc, hstart, hend⟩
  have hempty (hn : n = 0) : n + 2 < 3 := by omega
  refine ⟨fun hlo hhi => ?sent, fun hlo => ⟨fun hn => ?_, fun hn b0 b1 hp => ⟨fun hcrc => ?_, fun hcrc => ?twoFewer⟩⟩,
    reports_lo_start hreports, fun hlo hhi => ?hiStart, fun hlo hhi => ⟨fun hn => ?_, fun b0 hp hcrc => ?_⟩,
    fun hlo hhi => ⟨fun hn => ?_, fun hn => ?_⟩, fun hlo hhi => ⟨fun hn => ?_, fun b0 hp hcrc => ?_⟩,
    fun hlo hhi => ⟨fun hn => ?_, fun hn => ?_⟩, fun hlo hhi => ⟨fun hn => ?_, fun hn => ?_⟩⟩
  case sent =>
    have hreport := reports_both_free hreports (hfree hlo) (hfree hhi)
    rwa [decodeFrame_sent] at hreport
  case twoFewer =>
    have hreport := reports_lo_end hreports hlo
    rwa [(decodeFrame_two_fewer s.cfg.regRx id hp).trans (if_neg (not_not_intro hcrc))] at hreport
  case hiStart =>
    refine reports_hi_start hreports ?_ hhi
    rcases hlo with ⟨-, -, hend⟩ | hesc
    · exact hend
    · exact ne_of_eq_of_ne hesc (by decide)
  · exact (reports_lo_end hreports hlo).1 _ (decodeFrame_body_short (Nat.add_lt_add_right hn 1) _)
  · exact (reports_lo_end hreports hlo).1 _ ((decodeFrame_two_fewer _ id hp).trans (if_pos hcrc))
  · exact (reports_hi_end hreports (hfree hlo) hhi).1 _ (decodeFrame_body_short (hempty hn) _)
  · exact (reports_hi_end hreports (hfree hlo) hhi).1 _ ((decodeFrame_one_fewer _ id hp).trans (if_pos hcrc))
  · exact (reports_escape_end hreports hlo hhi).1 _ (decodeFrame_body_short (Nat.add_lt_add_right hn 1) _)
  · exact (reports_escape_end hreports hlo hhi).1 _ (decodeFrame_spoiled_end (tail := []) hn)
  · exact (reports_escape_free hreports hlo (hfree hhi)).1 _ (decodeFrame_body_short (hempty hn) _)
  · exact (reports_escape_free hreports hlo (hfree hhi)).1 _ ((decodeFrame_one_fewer _ id hp).trans (if_pos hcrc))
  · exact (reports_escape_escape hreports hlo hhi).1 _ (decodeFrame_body_short (Nat.add_lt_add_right hn 1) _)
  · exact (reports_escape_escape hreports hlo hhi).1 _ (decodeFrame_spoiled_end (tail := []) hn)
  · exact (reports_free_escape hreports (hfree hlo) hhi).1 _ (decodeFrame_body_short (hempty hn) _)
  · exact (reports_free_escape hreports (hfree hlo) hhi).1 _
      (decodeFrame_spoiled_end (tail := [lo]) (Nat.add_le_add_right (Nat.one_le_iff_ne_zero.mpr hn) 1))

end Sys2Proof.Machine
